-- ==== Sys2Proof/Word.lean ====
section
/-! DEFINITION. The word types of HASHCORE: bytes of messages and of output, 32-bit command words and RIPEMD-160
words, 64-bit Keccak lanes (spec/00_scope.md R10, R12). All are unsigned (R13). -/

namespace Sys2Proof

/-- A byte of a message, of a digest or of a reader's output. -/
abbrev Byte := BitVec 8

/-- A 32-bit word: a command word, a status register or a RIPEMD-160 word (R10). -/
abbrev Word := BitVec 32

/-- A 64-bit lane of the Keccak state (R10). -/
abbrev Lane := BitVec 64

/-- The 1600-bit Keccak state: lane (x, y) is element x + 5y (spec/42_keccak.md R221). -/
abbrev Lanes := Vector Lane 25

/-- The five RIPEMD-160 chaining words h0..h4 (spec/10_state.md R36). -/
abbrev Chain := Vector Word 5

end Sys2Proof
end

