-- ==== Sys2Proof/Machine/Bytes.lean ====
section
/-! DEFINITION. The operators of spec/00_scope.md R13 and R14 that Lean's bit vectors do not give by name: rotation
and the little-endian views (spec/20_memory.md R70, R71). Addition, `^`, `&`, `|` and `~` are those of BitVec. -/

namespace Sys2Proof.Machine

/-- R13: `rol_w(a, n)`, rotation left by n mod w positions. -/
def rol {w : Nat} (a : BitVec w) (n : Nat) : BitVec w := (a <<< (n % w)) ||| (a >>> (w - n % w))

/-- R70: byte k of a value, bits [8k+7 : 8k]. -/
def byteOf {w : Nat} (v : BitVec w) (k : Nat) : Byte := v.extractLsb' (8 * k) 8

/-- R14: `bytesLE_n(v)`, the n-byte little-endian string of v. -/
def bytesLE {w : Nat} (n : Nat) (v : BitVec w) : List Byte := (List.range n).map (byteOf v)

/-- R14: `LE32(b0, b1, b2, b3)`. -/
def le32 (b0 b1 b2 b3 : Byte) : Word := ((b3 ++ b2) ++ b1) ++ b0

/-- R14: `LE64(b0..b7)`, its low and high halves each an LE32. -/
def le64 (b0 b1 b2 b3 b4 b5 b6 b7 : Byte) : Lane := le32 b4 b5 b6 b7 ++ le32 b0 b1 b2 b3

/-- The 32-bit word at bytes 4i to 4i+3 of a block (spec/41_ripemd160.md R182). Blocks are whole (R141), so the 0 of
`getD` is never read. -/
def wordAt (b : List Byte) (i : Nat) : Word :=
  le32 (b.getD (4 * i) 0) (b.getD (4 * i + 1) 0) (b.getD (4 * i + 2) 0) (b.getD (4 * i + 3) 0)

/-- The 64-bit lane at bytes 8i to 8i+7 of a block (spec/43_sponge.md R261). -/
def laneAt (b : List Byte) (i : Nat) : Lane :=
  le64 (b.getD (8 * i) 0) (b.getD (8 * i + 1) 0) (b.getD (8 * i + 2) 0) (b.getD (8 * i + 3) 0)
    (b.getD (8 * i + 4) 0) (b.getD (8 * i + 5) 0) (b.getD (8 * i + 6) 0) (b.getD (8 * i + 7) 0)

/-- R14: `zeros(n)`. -/
def zeros (n : Nat) : List Byte := List.replicate n 0

end Sys2Proof.Machine
end

