-- ==== Sys2Proof/Machine/Ripemd.lean ====
section
/-! DEFINITION. The RIPEMD-160 compression engine (spec/41_ripemd160.md R180 to R202). The tables stand in the spec as
rows of sixteen; row g serves the steps 16g to 16g + 15. -/

namespace Sys2Proof.Machine

/-- R181: the initial chaining value. -/
def ripemdIV : Chain := #v[0x67452301, 0xEFCDAB89, 0x98BADCFE, 0x10325476, 0xC3D2E1F0]

/-- R183: the five nonlinear functions. The spec's table ends at group 4. -/
def rmdF (g : Nat) (x y z : Word) : Word :=
  match g with
  | 0 => x ^^^ y ^^^ z
  | 1 => (x &&& y) ||| (~~~x &&& z)
  | 2 => (x ||| ~~~y) ^^^ z
  | 3 => (x &&& z) ||| (y &&& ~~~z)
  | _ => x ^^^ (y ||| ~~~z)

/-- R184, left line. -/
def rmdKL (g : Nat) : Word :=
  match g with
  | 0 => 0x00000000
  | 1 => 0x5A827999
  | 2 => 0x6ED9EBA1
  | 3 => 0x8F1BBCDC
  | _ => 0xA953FD4E

/-- R184, right line. -/
def rmdKR (g : Nat) : Word :=
  match g with
  | 0 => 0x50A28BE6
  | 1 => 0x5C4DD124
  | 2 => 0x6D703EF3
  | 3 => 0x7A6D76E9
  | _ => 0x00000000

/-- R185: RL. -/
def rmdRL : List (List Nat) :=
  [[0, 1, 2, 3, 4, 5, 6, 7, 8, 9, 10, 11, 12, 13, 14, 15],
   [7, 4, 13, 1, 10, 6, 15, 3, 12, 0, 9, 5, 2, 14, 11, 8],
   [3, 10, 14, 4, 9, 15, 8, 1, 2, 7, 0, 6, 13, 11, 5, 12],
   [1, 9, 11, 10, 0, 8, 12, 4, 13, 3, 7, 15, 14, 5, 6, 2],
   [4, 0, 5, 9, 7, 12, 2, 10, 14, 1, 3, 8, 11, 6, 15, 13]]

/-- R186: RR. -/
def rmdRR : List (List Nat) :=
  [[5, 14, 7, 0, 9, 2, 11, 4, 13, 6, 15, 8, 1, 10, 3, 12],
   [6, 11, 3, 7, 0, 13, 5, 10, 14, 15, 8, 12, 4, 9, 1, 2],
   [15, 5, 1, 3, 7, 14, 6, 9, 11, 8, 12, 2, 10, 0, 4, 13],
   [8, 6, 4, 1, 3, 11, 15, 0, 5, 12, 2, 13, 9, 7, 10, 14],
   [12, 15, 10, 4, 1, 5, 8, 7, 6, 2, 13, 14, 0, 3, 9, 11]]

/-- R187: SL. -/
def rmdSL : List (List Nat) :=
  [[11, 14, 15, 12, 5, 8, 7, 9, 11, 13, 14, 15, 6, 7, 9, 8],
   [7, 6, 8, 13, 11, 9, 7, 15, 7, 12, 15, 9, 11, 7, 13, 12],
   [11, 13, 6, 7, 14, 9, 13, 15, 14, 8, 13, 6, 5, 12, 7, 5],
   [11, 12, 14, 15, 14, 15, 9, 8, 9, 14, 5, 6, 8, 6, 5, 12],
   [9, 15, 5, 11, 6, 8, 13, 12, 5, 12, 13, 14, 11, 8, 5, 6]]

/-- R188: SR. -/
def rmdSR : List (List Nat) :=
  [[8, 9, 9, 11, 13, 15, 15, 5, 7, 7, 8, 11, 14, 14, 12, 6],
   [9, 13, 15, 7, 12, 8, 9, 11, 7, 7, 12, 7, 6, 15, 13, 11],
   [9, 7, 15, 11, 8, 6, 6, 14, 12, 13, 5, 14, 13, 13, 7, 5],
   [15, 5, 8, 11, 14, 14, 6, 14, 6, 9, 12, 9, 12, 5, 15, 8],
   [8, 5, 12, 9, 12, 5, 14, 6, 8, 13, 6, 5, 15, 13, 11, 11]]

/-- The entry of a table of R185 to R188 for step j. -/
def rmdEntry (table : List (List Nat)) (j : Nat) : Nat := (table.getD (j / 16) []).getD (j % 16) 0

/-- R40: the five words of a line. -/
structure RmdLine where
  a : Word
  b : Word
  c : Word
  d : Word
  e : Word
deriving DecidableEq, Repr

/-- R189: one step of a line. -/
def rmdStep (l : RmdLine) (f : Word → Word → Word → Word) (xw k : Word) (n : Nat) : RmdLine :=
  { a := l.e
    b := rol (l.a + f l.b l.c l.d + xw + k) n + l.e
    c := l.b
    d := rol l.c 10
    e := l.d }

/-- R190, the left line's step j on block b. -/
def rmdLeftStep (b : List Byte) (l : RmdLine) (j : Nat) : RmdLine :=
  rmdStep l (rmdF (j / 16)) (wordAt b (rmdEntry rmdRL j)) (rmdKL (j / 16)) (rmdEntry rmdSL j)

/-- R190, the right line's step j: the same functions in reverse group order (R183). -/
def rmdRightStep (b : List Byte) (l : RmdLine) (j : Nat) : RmdLine :=
  rmdStep l (rmdF (4 - j / 16)) (wordAt b (rmdEntry rmdRR j)) (rmdKR (j / 16)) (rmdEntry rmdSR j)

/-- R190: both lines start from the chaining words. -/
def rmdStart (h : Chain) : RmdLine := { a := h[0], b := h[1], c := h[2], d := h[3], e := h[4] }

/-- R190: the left line after its first n steps. -/
def rmdLeft (h : Chain) (b : List Byte) (n : Nat) : RmdLine := (List.range n).foldl (rmdLeftStep b) (rmdStart h)

/-- R190: the right line after its first n steps. -/
def rmdRight (h : Chain) (b : List Byte) (n : Nat) : RmdLine := (List.range n).foldl (rmdRightStep b) (rmdStart h)

/-- R191: COMBINE. -/
def rmdCombine (h : Chain) (l r : RmdLine) : Chain :=
  #v[h[1] + l.c + r.d, h[2] + l.d + r.e, h[3] + l.e + r.a, h[4] + l.a + r.b, h[0] + l.b + r.c]

/-- R190: RMD_COMPRESS(H, b), 80 steps a line. -/
def rmdCompress (h : Chain) (b : List Byte) : Chain := rmdCombine h (rmdLeft h b 80) (rmdRight h b 80)

/-- R202: the digest, the five words little-endian in the order h0..h4. -/
def rmdDigest (h : Chain) : List Byte := h.toList.flatMap (bytesLE 4)

end Sys2Proof.Machine
end

