-- ==== Sys2Proof/Machine/Keccak.lean ====
section
/-! DEFINITION. The Keccak-f[1600] permutation engine (spec/42_keccak.md R220 to R233) and the byte view of its state
(spec/10_state.md R39). -/

namespace Sys2Proof.Machine

/-- R221: lane (x, y), the arithmetic on x and y mod 5. -/
def lane (A : Lanes) (x y : Nat) : Lane := A[x % 5 + 5 * (y % 5)]'(by omega)

/-- The state whose lane (x, y) is `f x y`, for x and y in 0..4 (R221). -/
def ofGrid (f : Nat → Nat → Lane) : Lanes := Vector.ofFn fun i : Fin 25 => f (i.val % 5) (i.val / 5)

/-- R224: the round constants. -/
def keccakRC : List Lane :=
  [0x0000000000000001, 0x0000000000008082, 0x800000000000808A, 0x8000000080008000,
   0x000000000000808B, 0x0000000080000001, 0x8000000080008081, 0x8000000000008009,
   0x000000000000008A, 0x0000000000000088, 0x0000000080008009, 0x000000008000000A] ++
  [0x000000008000808B, 0x800000000000008B, 0x8000000000008089, 0x8000000000008003,
   0x8000000000008002, 0x8000000000000080, 0x000000000000800A, 0x800000008000000A,
   0x8000000080008081, 0x8000000000008080, 0x0000000080000001, 0x8000000080008008]

/-- R225: the rotation offsets, row x, column y. -/
def keccakROT : List (List Nat) :=
  [[0, 36, 3, 41, 18],
   [1, 44, 10, 45, 2],
   [62, 6, 43, 15, 61],
   [28, 55, 25, 21, 56],
   [27, 20, 39, 8, 14]]

/-- R225: ROT[x][y]. -/
def rotOffset (x y : Nat) : Nat := (keccakROT.getD x []).getD y 0

/-- R226: the column parity C[x]. -/
def columnParity (A : Lanes) (x : Nat) : Lane :=
  lane A x 0 ^^^ lane A x 1 ^^^ lane A x 2 ^^^ lane A x 3 ^^^ lane A x 4

/-- R226: the column effect D[x]; x − 1 is x + 4 mod 5. -/
def columnEffect (A : Lanes) (x : Nat) : Lane := columnParity A (x + 4) ^^^ rol (columnParity A (x + 1)) 1

/-- R226: θ. -/
def theta (A : Lanes) : Lanes := ofGrid fun x y => lane A x y ^^^ columnEffect A x

/-- R227: ρ and π combined. Lane (x, y), rotated, moves to (y, 2x + 3y); so the lane that arrives at (u, v) comes from
x = u + 3v mod 5 and y = u (the spec's own form is stated in Obligations.RhoPiMovesEachLane). -/
def rhoPi (A : Lanes) : Lanes := ofGrid fun u v => rol (lane A (u + 3 * v) u) (rotOffset ((u + 3 * v) % 5) u)

/-- R228: χ. -/
def chi (B : Lanes) : Lanes := ofGrid fun x y => lane B x y ^^^ (~~~(lane B (x + 1) y) &&& lane B (x + 2) y)

/-- R229: ι. -/
def iota (A : Lanes) (i : Nat) : Lanes := A.set 0 (A[0] ^^^ keccakRC.getD i 0)

/-- R230: one round. -/
def keccakRound (A : Lanes) (i : Nat) : Lanes := iota (chi (rhoPi (theta A))) i

/-- R231: the first n rounds. -/
def keccakRounds (A : Lanes) (n : Nat) : Lanes := (List.range n).foldl keccakRound A

/-- R231: KECCAK_F, 24 rounds whatever the data. -/
def keccakF (A : Lanes) : Lanes := keccakRounds A 24

/-- R39: byte j of the byte view SB(A), for j in 0..<200. No rule reads a byte at 200 or above: RPOS stays below the
rate (R43). -/
def stateByte (A : Lanes) (j : Nat) : Byte := byteOf (A.toList.getD (j / 8) 0) (j % 8)

/-- R39: SB(A), 200 bytes. -/
def stateBytes (A : Lanes) : List Byte := A.toList.flatMap (bytesLE 8)

/-- R233: one step of the LFSR with polynomial x^8 + x^6 + x^5 + x^4 + 1, its state in bits 7 to 0. -/
def lfsrStep (r : BitVec 9) : BitVec 9 :=
  let t := r <<< 1
  if t.getLsbD 8 then t ^^^ 0x171 else t

/-- R233: rc(t), the output bit after t mod 255 steps from the state 1. -/
def lfsrBit (t : Nat) : Bool := (Nat.iterate lfsrStep (t % 255) 1).getLsbD 0

/-- R233: the round constant that the formula gives for round i: bit 2^j − 1 is rc(j + 7i) for j in 0..6, every other
bit 0. -/
def keccakRCByFormula (i : Nat) : Lane :=
  (List.range 7).foldl (fun acc j => acc ||| (if lfsrBit (j + 7 * i) then 1#64 <<< (2 ^ j - 1) else 0)) 0

/-- R233: the walk over the lanes that gives the rotation offsets: where it stands before step t. -/
def rotWalk (t : Nat) : Nat × Nat := Nat.iterate (fun p => (p.2, (2 * p.1 + 3 * p.2) % 5)) t (1, 0)

end Sys2Proof.Machine
end

