-- ==== Sys2Proof/Syntax.lean ====
section
/-! DEFINITION. The five commands of HASHCORE, one constructor per row of spec/opcode_table.json
(spec/30_encoding.md R105). An operand is the header field the command carries, as it is encoded (R101, R107):
reserved fields have no place here, since a header whose reserved field is nonzero is not the command (R108). -/

namespace Sys2Proof

/-- A command, as its header word gives it. The payload of an UPDATE is not part of the header: it arrives in
later words (R104). -/
inductive Instr where
  /-- INIT: select the algorithm whose code is ARG (spec/44_commands.md R301). -/
  | init (arg : BitVec 8)
  /-- UPDATE: `n` message bytes follow (R305). -/
  | update (n : BitVec 16)
  /-- FINAL: finish the message and emit its digest (R310). -/
  | final
  /-- FINAL_XOF: finish the message and create the XOF reader (R315). -/
  | finalXof
  /-- READ: emit the reader's next `n` bytes (R320). -/
  | read (n : BitVec 16)
deriving DecidableEq, Repr

end Sys2Proof
end

