-- ==== Sys2Proof/WellFormed.lean ====
section
/-! DEFINITION. Which commands are legal encodings. The one operand that a command's own encoding restricts is
INIT's algorithm code (spec/30_encoding.md R106); byte counts are unrestricted (R107). -/

namespace Sys2Proof

/-- R106: an INIT carries one of the codes 1 to 7; every other operand is legal at every value (R107). An INIT
outside this is still decoded: its meaning raises BAD_ALG (R103). -/
def Instr.wellFormed : Instr → Bool
  | .init arg => decide (1 ≤ arg.toNat) && decide (arg.toNat ≤ 7)
  | .update _ => true
  | .final => true
  | .finalXof => true
  | .read _ => true

end Sys2Proof
end

