-- ==== Sys2Proof/Decode.lean ====
section
/-! DEFINITION. Header words to commands and back (spec/30_encoding.md R101, R103, R105, R108, R109).
The decoder is total on the 2^32 words. It makes the checks of R103 that look at the word alone; the checks that
look at the state are made by the commands' meanings, after these, as R103 orders them. -/

namespace Sys2Proof

/-- R101: OPC, bits [31:24] of a header word. -/
def opcField (w : Word) : BitVec 8 := w.extractLsb' 24 8

/-- R101: ARG, bits [23:16]. -/
def argField (w : Word) : BitVec 8 := w.extractLsb' 16 8

/-- R101: N, bits [15:0]. -/
def nField (w : Word) : BitVec 16 := w.extractLsb' 0 16

/-- Why a word is no command (R103): the two errors that the word alone decides before any command is chosen. -/
inductive Reject where
  /-- R109: OPC is 0x00 or 0x06 to 0xFF. -/
  | illegalOpcode
  /-- R108: a reserved field is nonzero. -/
  | reservedNonzero
deriving DecidableEq, Repr

/-- What the decoder makes of a header word. -/
inductive Decoded where
  | command (i : Instr)
  | reject (why : Reject)
deriving DecidableEq, Repr

/-- R103, the checks of a header word in their order, up to the choice of the command. -/
def decode (w : Word) : Decoded :=
  if opcField w = 0x01 then
    if nField w ≠ 0 then .reject .reservedNonzero else .command (.init (argField w))
  else if opcField w = 0x02 then
    if argField w ≠ 0 then .reject .reservedNonzero else .command (.update (nField w))
  else if opcField w = 0x03 then
    if argField w ≠ 0 then .reject .reservedNonzero
    else if nField w ≠ 0 then .reject .reservedNonzero else .command .final
  else if opcField w = 0x04 then
    if argField w ≠ 0 then .reject .reservedNonzero
    else if nField w ≠ 0 then .reject .reservedNonzero else .command .finalXof
  else if opcField w = 0x05 then
    if argField w ≠ 0 then .reject .reservedNonzero else .command (.read (nField w))
  else .reject .illegalOpcode

/-- A header word from its three fields, bit 31 first (R101). -/
def headerOf (opc arg : BitVec 8) (n : BitVec 16) : Word := (opc ++ arg) ++ n

/-- R105: the header word of a command. -/
def encode : Instr → Word
  | .init arg => headerOf 0x01 arg 0
  | .update n => headerOf 0x02 0 n
  | .final => headerOf 0x03 0 0
  | .finalXof => headerOf 0x04 0 0
  | .read n => headerOf 0x05 0 n

/-- The command that the decoder reads from the first 32-bit word of an instruction whose bits are `w`, `nbits` of
them given and the rest 0. A command is chosen by its header word alone (R100, R111); the payload words of an
UPDATE lie above bit 31 and choose nothing. -/
def decodeTableWord (nbits w : Nat) : Option Instr :=
  match decode (BitVec.ofNat 32 (w % 2 ^ nbits)) with
  | .command i => some i
  | .reject _ => none

end Sys2Proof
end

