-- ==== Sys2Proof/Config.lean ====
section
/-! DEFINITION. What the spec leaves to a platform (R11) and the free values that stand for what it leaves
unspecified (R33, R58, R146, R149; spec/93_implementation_defined.md U2, U3). None has a body: a claim about the
model holds whatever they are. They take a moment and an index and no name of a copy of the core: the free values of two
copies of a platform are not told apart (DESIGN CHOICE, notes/assumptions/20.md). -/

namespace Sys2Proof.Config

/-- How many bytes the response queue holds beyond the least capacity of 65535; `none` is an unbounded queue
(R11 OUT_DEPTH, R392 "OUT_DEPTH must be at least 65535"). -/
opaque outDepthExtra : Option Nat

/-- OUT_DEPTH, the capacity of the response queue OUT; `none` is the ∞ that R11 allows. -/
def outDepth : Option Nat := outDepthExtra.map (65535 + ·)

/-- How many copies of the core a platform holds beyond the first (R11, R361). -/
opaque nInstancesExtra : Nat

/-- N_INSTANCES, at least 1 (R11, R361). -/
def nInstances : Nat := nInstancesExtra + 1

/-- STATUS_BASE, the platform address of the status register window (R11, R50). -/
opaque statusBase : Nat

/-- The platform address of the status register at byte offset `off` (R50). -/
def statusAddress (off : Nat) : Nat := statusBase + off

/-- Unspecified byte `i` of the storage made unspecified at moment `n` (R33, R58, R146, R149). -/
opaque freeByte : Nat → Nat → Byte

/-- Unspecified 32-bit word `i` at moment `n` (R58, H after a hardware reset). -/
opaque freeWord : Nat → Nat → Word

/-- Unspecified lane `i` at moment `n` (R58, S and RS after a hardware reset). -/
opaque freeLane : Nat → Nat → Lane

end Sys2Proof.Config
end

