-- ==== Sys2Proof/Machine/State.lean ====
section
/-! DEFINITION. The state of one HASHCORE (spec/10_state.md), the host's side of its three ports, the reasons a step
can stop, and the state after a hardware reset (R58). All of it is plain data. -/

namespace Sys2Proof.Machine

/-- The algorithm code ALG, 3 bits: the eight rows of spec/00_scope.md R8 (R32). -/
inductive Alg where
  | none
  | ripemd160
  | sha3_224
  | sha3_256
  | sha3_384
  | sha3_512
  | shake128
  | shake256
deriving DecidableEq, Repr

/-- The kind column of R8. -/
inductive Kind where
  | none
  | md
  | fixed
  | xof
deriving DecidableEq, Repr

/-- The cause of the error that halted the engine (spec/60_exceptions.md R341); `none` is code 0. Codes 8 to 15 are
never raised. -/
inductive Cause where
  | none
  | illegalOpcode
  | reservedNonzero
  | badAlg
  | notConfigured
  | wrongFinalize
  | noReader
  | lenOverflow
deriving DecidableEq, Repr

/-- The hasher context (R4, R32 to R36, R38). -/
structure Context where
  /-- ALG, 3 bits (R32). -/
  alg : Alg
  /-- BUF, 168 bytes (R33). The bytes at FILL and above hold no defined value. -/
  buf : Vector Byte 168
  /-- FILL, 8 bits (R34). -/
  fill : BitVec 8
  /-- LEN, 64 bits (R35). -/
  len : BitVec 64
  /-- H[0] to H[4] (R36). -/
  h : Chain
  /-- S[0] to S[24] (R38). -/
  s : Lanes
deriving DecidableEq, Repr

/-- The XOF reader slot (R42). -/
structure Reader where
  /-- RVALID, 1 bit. -/
  valid : Bool
  /-- RALG, 3 bits. -/
  alg : Alg
  /-- RS[0] to RS[24]. -/
  rs : Lanes
  /-- RRATE, 8 bits. -/
  rate : BitVec 8
  /-- RPOS, 8 bits. -/
  pos : BitVec 8
deriving DecidableEq, Repr

/-- The error state (R44). -/
structure ErrState where
  /-- HALT, 1 bit. -/
  halt : Bool
  /-- CAUSE, 4 bits: the code of this cause (R341). -/
  cause : Cause
  /-- ERR_WORD, 32 bits. -/
  errWord : Word
deriving DecidableEq, Repr

/-- The frame state of the command decoder (R45). -/
structure Frame where
  /-- PEND, 1 bit. -/
  pend : Bool
  /-- PHDR, 32 bits. -/
  phdr : Word
  /-- PREM, 16 bits. -/
  prem : BitVec 16
  /-- PDATA, the payload bytes collected so far. -/
  pdata : List Byte
deriving DecidableEq, Repr

/-- A transaction that the host makes on one of the ports, or the reset input (R72, R73, R74, R50, R380, R390). -/
inductive HostOp where
  /-- A 32-bit write to the command port (R72). -/
  | write (w : Word)
  /-- An 8-bit read of the response port (R73). -/
  | readOut
  /-- A 32-bit read of the status window at this byte offset from STATUS_BASE (R50, R74). -/
  | readStatus (off : Nat)
  /-- A 32-bit write to the status window (R50). -/
  | writeStatus (off : Nat) (w : Word)
  /-- The reset input asserted (R380), with the command word that arrives together with it, if one does (R381), or that
  was waiting for room in OUT and is lost to it (DESIGN CHOICE, notes/assumptions/21.md). -/
  | reset (together : Option Word)
deriving DecidableEq, Repr

/-- What a port has given back to the host. -/
inductive HostSeen where
  /-- The byte a response-port read returned (R73). -/
  | outByte (b : Byte)
  /-- The value a status read returned, with its offset (R50). -/
  | status (off : Nat) (v : Word)
deriving DecidableEq, Repr

/-- One HASHCORE and its host. The last four fields are the model's own: what the host has still to do, what it has
been given, and the counter of the free values (notes/assumptions/3.md, 4.md). -/
structure State where
  /-- The hasher context. -/
  ctx : Context
  /-- The XOF reader slot. -/
  reader : Reader
  /-- The error state. -/
  err : ErrState
  /-- The frame state. -/
  frame : Frame
  /-- OUT, the response queue, its head first (R37). -/
  out : List Byte
  /-- MODEL'S OWN. The transactions that the host has still to complete, in the order it makes them (R80, R390). -/
  host : List HostOp
  /-- MODEL'S OWN. What the ports have returned to the host, oldest first. -/
  seen : List HostSeen
  /-- MODEL'S OWN. The response-port reads that the host has outstanding beside the list above, in another thread:
  they stay enabled while a command word waits for room in OUT (R392). -/
  drain : Nat
  /-- MODEL'S OWN. How many times storage has been made unspecified: the moment that `Config.freeByte`,
  `Config.freeWord` and `Config.freeLane` are asked for. -/
  free : Nat
deriving DecidableEq, Repr

/-- Why the machine has no step. -/
inductive Fault where
  /-- Raised by a response-port read while OUT is empty. SAFE: R73 gives the host no read step there, so the run is
  stuck and no byte is invented (spec/93_implementation_defined.md U16). -/
  | responseQueueEmpty
deriving DecidableEq, Repr

/-- What the model gives no meaning. -/
inductive Refusal where
  /-- Raised by no arm of this model: a command without a meaning would answer it. SAFE. -/
  | notModelled (mnemonic : String)
  /-- Raised by a status read outside the window or at an offset that is no multiple of 4: SAFE, R56 leaves it to the
  platform (U21). Raised by a status write outside the window: SAFE, R50 speaks only of the window. -/
  | statusOutsideWindow
deriving DecidableEq, Repr

/-- The frame state between commands: PEND, PHDR and PREM 0, PDATA empty (R45, R58, R340). -/
def Frame.idle : Frame := { pend := false, phdr := 0, prem := 0, pdata := [] }

/-- The error state before any error (R44, R58). -/
def ErrState.clear : ErrState := { halt := false, cause := .none, errWord := 0 }

/-- R58, the state right after a hardware reset. R58 leaves BUF, H, S and RS unspecified: the zeros here are the
model's choice (DESIGN CHOICE, notes/assumptions/1.md). The host has nothing to do yet. -/
def State.reset : State :=
  { ctx :=
      { alg := .none, buf := Vector.replicate 168 0, fill := 0, len := 0, h := Vector.replicate 5 0,
        s := Vector.replicate 25 0 }
    reader := { valid := false, alg := .none, rs := Vector.replicate 25 0, rate := 0, pos := 0 }
    err := ErrState.clear
    frame := Frame.idle
    out := []
    host := []
    seen := []
    drain := 0
    free := 0 }

end Sys2Proof.Machine
end

