-- ==== Sys2Proof/Machine/Operands.lean ====
section
/-! DEFINITION. The operands of the commands: the algorithm code of INIT and what each algorithm selects
(spec/00_scope.md R8, R9), and the checks of spec/30_encoding.md R103 that compare an operand with the state. -/

namespace Sys2Proof.Machine

/-- R8, column ALG: the 3-bit code. -/
def Alg.code : Alg → BitVec 3
  | .none => 0
  | .ripemd160 => 1
  | .sha3_224 => 2
  | .sha3_256 => 3
  | .sha3_384 => 4
  | .sha3_512 => 5
  | .shake128 => 6
  | .shake256 => 7

/-- R106: the algorithm that the ARG field of INIT selects; 0 and 8 to 255 select none. -/
def algOfArg (arg : BitVec 8) : Option Alg :=
  if arg = 1 then some .ripemd160
  else if arg = 2 then some .sha3_224
  else if arg = 3 then some .sha3_256
  else if arg = 4 then some .sha3_384
  else if arg = 5 then some .sha3_512
  else if arg = 6 then some .shake128
  else if arg = 7 then some .shake256
  else Option.none

/-- R8, column kind. -/
def Alg.kind : Alg → Kind
  | .none => .none
  | .ripemd160 => .md
  | .sha3_224 => .fixed
  | .sha3_256 => .fixed
  | .sha3_384 => .fixed
  | .sha3_512 => .fixed
  | .shake128 => .xof
  | .shake256 => .xof

/-- R8, column CAP: the block size in bytes, the rate of a sponge. R8 gives NONE no block size and no command reads
one; the 0 stands for that. -/
def Alg.cap : Alg → Nat
  | .none => 0
  | .ripemd160 => 64
  | .sha3_224 => 144
  | .sha3_256 => 136
  | .sha3_384 => 104
  | .sha3_512 => 72
  | .shake128 => 168
  | .shake256 => 136

/-- R8, column OUTLEN: the bytes of a digest. NONE and the extendable-output algorithms have no digest; the 0 stands
for that and no command reads it. -/
def Alg.outLen : Alg → Nat
  | .none => 0
  | .ripemd160 => 20
  | .sha3_224 => 28
  | .sha3_256 => 32
  | .sha3_384 => 48
  | .sha3_512 => 64
  | .shake128 => 0
  | .shake256 => 0

/-- R8, column PAD, the domain suffix with its first pad bit (spec/40_block_buffer.md R148). Only the sponges have
one; the 0 of the other two is read by no command. -/
def Alg.pad : Alg → Byte
  | .none => 0
  | .ripemd160 => 0
  | .sha3_224 => 0x06
  | .sha3_256 => 0x06
  | .sha3_384 => 0x06
  | .sha3_512 => 0x06
  | .shake128 => 0x1F
  | .shake256 => 0x1F

/-- R8, last column: the capacity c of a sponge in bits, 1600 − 8 × rate (R16). -/
def Alg.capacityBits (a : Alg) : Option Nat :=
  match a.kind with
  | .fixed | .xof => some (1600 - 8 * a.cap)
  | .md | .none => Option.none

/-- R9: LEN_MAX(kind), in bytes. R9 gives the kind of NONE no limit, and no command reads one. -/
def lenMax : Kind → Nat
  | .none => 0
  | .md => 2 ^ 61 - 1
  | .fixed => 2 ^ 64 - 1
  | .xof => 2 ^ 64 - 1

/-- R103: `LEN + zext_64(N) > LEN_MAX(kind(ALG))`, the sum without wrap. -/
def lenOverflows (c : Context) (n : BitVec 16) : Bool := decide (lenMax c.alg.kind < c.len.toNat + n.toNat)

/-- R392: out(c), the bytes that a command emits if its header passes every check of R103, and 0 otherwise. -/
def outBytes (i : Instr) (s : State) : Nat :=
  match i with
  | .init _ => 0
  | .update _ => 0
  | .final => s.ctx.alg.outLen
  | .finalXof => 0
  | .read n => if s.reader.valid then n.toNat else 0

/-- R392 for any header word: a word that is no command raises an error and emits nothing. -/
def outNeeded (w : Word) (s : State) : Nat :=
  match decode w with
  | .command i => outBytes i s
  | .reject _ => 0

/-- R392: in a queue of capacity `depth` (`none` is unbounded) the free space in OUT, depth − |OUT|, is at least
`need`. The first two cases follow from a depth of at least 65535, which R392 requires; with them they can be seen
without knowing OUT_DEPTH (Laws/Operands.lean: `roomFor_iff`). -/
def roomFor (depth : Option Nat) (need : Nat) (s : State) : Bool :=
  decide (need = 0) || (decide (s.out.length + need ≤ 65535) ||
    (match depth with
      | Option.none => true
      | some d => decide (need ≤ d - s.out.length)))

end Sys2Proof.Machine
end

