-- ==== Sys2Proof/Machine/Sponge.lean ====
section
/-! DEFINITION. The sponge controller's two operations: absorbing a block and squeezing bytes from the reader
(spec/43_sponge.md R261, R265, R266). -/

namespace Sys2Proof.Machine

/-- R261: XOR the block into the leading CAP bytes of the state. CAP is a multiple of 8, so this XORs LE64 of the
block's bytes 8i to 8i+7 into lane i for i in 0..<CAP/8 and leaves the other lanes. -/
def xorBlock (cap : Nat) (S : Lanes) (b : List Byte) : Lanes :=
  Vector.ofFn fun i : Fin 25 => if i.val < cap / 8 then S[i] ^^^ laneAt b i.val else S[i]

/-- R261: ABSORB(S, b). -/
def absorb (cap : Nat) (S : Lanes) (b : List Byte) : Lanes := keccakF (xorBlock cap S b)

/-- R265: the reader that FINAL_XOF makes of a padded context. -/
def newReader (c : Context) : Reader :=
  { valid := true, alg := c.alg, rs := c.s, rate := BitVec.ofNat 8 c.alg.cap, pos := 0 }

/-- R266: when the window is exhausted and a byte is needed, permute RS and start the next window. -/
def refill (r : Reader) : Reader := if r.pos = r.rate then { r with rs := keccakF r.rs, pos := 0 } else r

/-- R266, one turn of the loop: the next byte and the reader after it. -/
def squeezeByte (r : Reader) : Byte × Reader :=
  let r' := refill r
  (stateByte r'.rs r'.pos.toNat, { r' with pos := r'.pos + 1 })

/-- R266: SQUEEZE(n), the bytes it emits in order and the reader after them. -/
def squeeze : Nat → Reader → List Byte × Reader
  | 0, r => ([], r)
  | n + 1, r =>
    let p := squeezeByte r
    let q := squeeze n p.2
    (p.1 :: q.1, q.2)

end Sys2Proof.Machine
end

