-- ==== Sys2Proof/Machine/Buffer.lean ====
section
/-! DEFINITION. The block buffer (spec/40_block_buffer.md R140 to R149): accumulating bytes into blocks and the two
paddings. -/

namespace Sys2Proof.Machine

/-- R141: BLOCK(b), the compression or the absorption that ALG selects. -/
def block (c : Context) (b : List Byte) : Context :=
  if c.alg.kind = .md then { c with h := rmdCompress c.h b } else { c with s := absorb c.alg.cap c.s b }

/-- BUF[0..<n]. -/
def bufHead (c : Context) (n : Nat) : List Byte := c.buf.toList.take n

/-- R143, R145, R147: hand the full buffer to BLOCK and empty it. -/
def emptyFull (c : Context) : Context := { block c (bufHead c c.alg.cap) with fill := 0 }

/-- R143, one turn of the loop: `BUF[FILL] <- d; FILL <- FILL + 1`, and a block that becomes full is processed at
once. -/
def processByte (c : Context) (d : Byte) : Context :=
  let c' := { c with buf := c.buf.setIfInBounds c.fill.toNat d, fill := c.fill + 1 }
  if c'.fill.toNat = c'.alg.cap then emptyFull c' else c'

/-- R143: process(data). -/
def process (data : List Byte) (c : Context) : Context := data.foldl processByte c

/-- R145: the blocks that length_pad hands to BLOCK after the bytes `pre` of the last, partial block. -/
def lengthPadBlocks (cap : Nat) (pre : List Byte) (bitlen : BitVec 64) : List (List Byte) :=
  let blk := pre ++ [0x80] ++ zeros (cap - pre.length - 1)
  if cap - 8 < pre.length + 1 then [blk, zeros (cap - 8) ++ bytesLE 8 bitlen]
  else [blk.take (cap - 8) ++ bytesLE 8 bitlen]

/-- R147: the block that pad_with hands to BLOCK after the bytes `pre` of the last, partial block. -/
def padWithBlock (cap : Nat) (pad : Byte) (pre : List Byte) : List Byte :=
  let blk := pre ++ [pad] ++ zeros (cap - pre.length - 1)
  blk.set (cap - 1) (blk.getD (cap - 1) 0 ||| 0x80)

/-- R145, R147, the first branch of both paddings: a full buffer is emptied (never true in a reachable state, R34). -/
def emptyIfFull (c : Context) : Context := if c.fill.toNat = c.alg.cap then emptyFull c else c

/-- R145: length_pad(bitlen). -/
def lengthPad (bitlen : BitVec 64) (c : Context) : Context :=
  let c' := emptyIfFull c
  { (lengthPadBlocks c'.alg.cap (bufHead c' c'.fill.toNat) bitlen).foldl block c' with fill := 0 }

/-- R147: pad_with(PAD). -/
def padWith (pad : Byte) (c : Context) : Context :=
  let c' := emptyIfFull c
  { block c' (padWithBlock c'.alg.cap pad (bufHead c' c'.fill.toNat)) with fill := 0 }

/-- R201: LEN × 8, the message length in bits. -/
def bitLength (c : Context) : BitVec 64 := BitVec.ofNat 64 (8 * c.len.toNat)

/-- The padding a finalize runs: R201 and R311 for RIPEMD-160, R263 and R264 for a sponge. -/
def finalPad (c : Context) : Context :=
  if c.alg.kind = .md then lengthPad (bitLength c) c else padWith c.alg.pad c

/-- The digest of a padded context: R202 for RIPEMD-160, R263 (the leading OUTLEN bytes of the state) for a sponge. -/
def digestOf (c : Context) : List Byte :=
  if c.alg.kind = .md then rmdDigest c.h else (List.range c.alg.outLen).map (stateByte c.s)

end Sys2Proof.Machine
end

