-- ==== Sys2Proof/Machine/Flags.lean ====
section
/-! DEFINITION. The status register file (spec/10_state.md R50 to R57). HASHCORE has no condition codes and no
arithmetic flags (R46): its only status bits are the read-only fields below, each a copy of a state element. -/

namespace Sys2Proof.Machine

/-- R341: the 4-bit code of a cause. -/
def Cause.code : Cause → BitVec 4
  | .none => 0
  | .illegalOpcode => 1
  | .reservedNonzero => 2
  | .badAlg => 3
  | .notConfigured => 4
  | .wrongFinalize => 5
  | .noReader => 6
  | .lenOverflow => 7

/-- A one-bit field. -/
def bit (b : Bool) : BitVec 1 := BitVec.ofBool b

/-- R51: STATUS, from bit 31 down: reserved, FILL, reserved, CAUSE, reserved, PEND, HALT, RVALID, ALG. -/
def statusReg (s : State) : Word :=
  (0 : BitVec 8) ++ s.ctx.fill ++ (0 : BitVec 4) ++ s.err.cause.code ++ (0 : BitVec 2) ++ bit s.frame.pend ++
    bit s.err.halt ++ bit s.reader.valid ++ s.ctx.alg.code

/-- R52: RDR_STATUS, from bit 31 down: reserved, RALG, RRATE, RPOS. -/
def rdrStatusReg (s : State) : Word :=
  (0 : BitVec 13) ++ s.reader.alg.code ++ s.reader.rate ++ s.reader.pos

/-- R53: LEN_LO reads LEN[31:0]. -/
def lenLoReg (s : State) : Word := s.ctx.len.extractLsb' 0 32

/-- R53: LEN_HI reads LEN[63:32]. -/
def lenHiReg (s : State) : Word := s.ctx.len.extractLsb' 32 32

/-- R54. -/
def errWordReg (s : State) : Word := s.err.errWord

/-- R55: FRAME, bits [15:0] PREM and bits [31:16] 0. -/
def frameReg (s : State) : Word := (0 : BitVec 16) ++ s.frame.prem

/-- R50: a byte offset inside the window, whose eight registers take up 32 bytes. -/
def inStatusWindow (off : Nat) : Bool := decide (off < 32)

/-- R56: an offset that a read may name: inside the window and a multiple of 4, so 0x00 to 0x1C. -/
def isStatusOffset (off : Nat) : Bool := inStatusWindow off && decide (off % 4 = 0)

/-- R50: the register at an offset of the window; the two reserved offsets read 0 (R56). Offsets outside the window
and those that are no multiple of 4 give nothing: reading them is the platform's business. -/
def statusAt (off : Nat) (s : State) : Option Word :=
  if isStatusOffset off then
    if off = 0x00 then some (statusReg s)
    else if off = 0x04 then some (rdrStatusReg s)
    else if off = 0x08 then some (lenLoReg s)
    else if off = 0x0C then some (lenHiReg s)
    else if off = 0x10 then some (errWordReg s)
    else if off = 0x14 then some (frameReg s)
    else some 0
  else Option.none

end Sys2Proof.Machine
end

