-- ==== Sys2Proof/Machine/Ops.lean ====
section
/-! DEFINITION. The named operations over the whole state that the commands share: emitting output, error entry
(HASHCORE's one exception, spec/60_exceptions.md R340) and the hardware reset that alone leaves it (R346, R380),
re-initialisation, and the intake of payload words. -/

namespace Sys2Proof.Machine

/-- R14, R37: append bytes to the tail of OUT. -/
def emit (bs : List Byte) (s : State) : State := { s with out := s.out ++ bs }

/-- R33: a buffer whose bytes at `fill` and above hold no defined value: free values of moment n. -/
@[irreducible] def staleAbove (fill : BitVec 8) (n : Nat) (buf : Vector Byte 168) : Vector Byte 168 :=
  Vector.ofFn fun i : Fin 168 => if i.val < fill.toNat then buf[i] else Config.freeByte n i.val

/-- R58: chaining words that hold no defined value: free values of moment n. The moments are those of one core; what
two copies hold is not told apart (R361; DESIGN CHOICE, notes/assumptions/20.md). -/
@[irreducible] def unspecifiedChain (n : Nat) : Chain := Vector.ofFn fun i : Fin 5 => Config.freeWord n i.val

/-- R58: a Keccak state that holds no defined value; `k` keeps the lanes of S and RS apart, and nothing keeps those of
two copies apart (notes/assumptions/20.md). -/
@[irreducible] def unspecifiedLanes (n k : Nat) : Lanes := Vector.ofFn fun i : Fin 25 => Config.freeLane n (k + i.val)

/-- R33, R146, R149: the bytes BUF[FILL..<168] hold no defined value: from here on they are free values. -/
def forgetStale (s : State) : State :=
  { s with ctx := { s.ctx with buf := staleAbove s.ctx.fill s.free s.ctx.buf }, free := s.free + 1 }

/-- R301: the context that REINIT leaves, its BUF apart. ALG is kept. -/
def reinitContext (c : Context) : Context :=
  { c with fill := 0, len := 0, h := ripemdIV, s := Vector.replicate 25 0 }

/-- R301: REINIT(). BUF keeps no defined value. -/
def reinit (s : State) : State := forgetStale { s with ctx := reinitContext s.ctx }

/-- R340: raise EngineError(cause, w). HALT, CAUSE and ERR_WORD are written and the frame state is emptied; nothing
else changes, so errors are precise. It saves nothing more and transfers control nowhere (R345). -/
def raiseError (cause : Cause) (w : Word) (s : State) : State :=
  { s with err := { halt := true, cause := cause, errWord := w }, frame := Frame.idle }

/-- R103: the error that a word raises when it is no command. -/
def rejectCause : Reject → Cause
  | .illegalOpcode => .illegalOpcode
  | .reservedNonzero => .reservedNonzero

/-- R380, R381: the hardware reset, the only way out of the halted state (R346). Every element takes the value of
R58; BUF, H, S and RS become unspecified, so they are free values of the moment `free`. DESIGN CHOICE,
notes/assumptions/20.md: the moment alone selects them, so two copies of the core (R361) reset at equal moments hold
equal ones, which the spec does not say. The host's own side stays. -/
def hardwareReset (s : State) : State :=
  { ctx :=
      { alg := .none
        buf := staleAbove 0 s.free s.ctx.buf
        fill := 0
        len := 0
        h := unspecifiedChain s.free
        s := unspecifiedLanes s.free 0 }
    reader := { valid := false, alg := .none, rs := unspecifiedLanes s.free 25, rate := 0, pos := 0 }
    err := ErrState.clear
    frame := Frame.idle
    out := []
    host := s.host
    seen := s.seen
    drain := s.drain
    free := s.free + 1 }

/-- R103, R305: the frame state after an accepted UPDATE header of n > 0 bytes. -/
def openPayload (n : BitVec 16) (s : State) : State :=
  { s with frame := { pend := true, phdr := encode (.update n), prem := n, pdata := [] } }

/-- R306: UPDATE_BODY(data). The bytes of BUF above the new FILL hold no defined value (R33). -/
def updateBody (data : List Byte) (s : State) : State :=
  forgetStale
    { s with ctx := process data { s.ctx with len := s.ctx.len + BitVec.ofNat 64 data.length } }

/-- R104: the bytes that a payload word carries, at most PREM of its four. -/
def payloadBytes (prem : BitVec 16) (w : Word) : List Byte := (List.range (min 4 prem.toNat)).map (byteOf w)

/-- R104: payload_word(w). -/
def payloadWord (w : Word) (s : State) : State :=
  let k := min 4 s.frame.prem.toNat
  let pdata := s.frame.pdata ++ payloadBytes s.frame.prem w
  let prem := s.frame.prem - BitVec.ofNat 16 k
  if prem = 0 then
    { updateBody pdata { s with frame := { s.frame with pend := false, prem := prem, pdata := pdata } } with
      frame := Frame.idle }
  else
    { s with frame := { s.frame with prem := prem, pdata := pdata } }

/-- R311: FINAL's body: pad, emit the digest, re-initialise. -/
def finalBody (s : State) : State :=
  let c := finalPad s.ctx
  reinit (emit (digestOf c) { s with ctx := c })

/-- R316: FINAL_XOF's body: pad, create the reader, re-initialise. -/
def finalXofBody (s : State) : State :=
  let c := finalPad s.ctx
  reinit { s with ctx := c, reader := newReader c }

/-- R266, R320: READ's body. -/
def readBody (n : Nat) (s : State) : State :=
  let p := squeeze n s.reader
  emit p.1 { s with reader := p.2 }

end Sys2Proof.Machine
end

