-- ==== Sys2Proof/Machine/Commands.lean ====
section
/-! DEFINITION. The meaning of each command, given that its header word decodes to it: the checks of
spec/30_encoding.md R103 that look at the state, in their order, and then the effect of spec/44_commands.md. The
error of a failed check is taken, not answered as a fault: the next state is the halted one (R340). -/

namespace Sys2Proof.Machine

/-- R301: INIT alg. BAD_ALG if ARG is not in 1..7 (R106). -/
def execInit (arg : BitVec 8) (s : State) : Host.Outcome State Fault Refusal :=
  match algOfArg arg with
  | Option.none => .next (raiseError .badAlg (encode (.init arg)) s)
  | some a => .next (reinit { s with ctx := { s.ctx with alg := a } })

/-- R305: the UPDATE n header. NOT_CONFIGURED, then LEN_OVERFLOW; `UPDATE 0` has no effect (R110). -/
def execUpdate (n : BitVec 16) (s : State) : Host.Outcome State Fault Refusal :=
  if s.ctx.alg = .none then .next (raiseError .notConfigured (encode (.update n)) s)
  else if lenOverflows s.ctx n then .next (raiseError .lenOverflow (encode (.update n)) s)
  else if n = 0 then .next s
  else .next (openPayload n s)

/-- R310, R311: FINAL. NOT_CONFIGURED, then WRONG_FINALIZE under an extendable-output algorithm. -/
def execFinal (s : State) : Host.Outcome State Fault Refusal :=
  if s.ctx.alg = .none then .next (raiseError .notConfigured (encode .final) s)
  else if s.ctx.alg.kind = .xof then .next (raiseError .wrongFinalize (encode .final) s)
  else .next (finalBody s)

/-- R315, R316: FINAL_XOF. NOT_CONFIGURED, then WRONG_FINALIZE under any other algorithm. -/
def execFinalXof (s : State) : Host.Outcome State Fault Refusal :=
  if s.ctx.alg = .none then .next (raiseError .notConfigured (encode .finalXof) s)
  else if s.ctx.alg.kind ≠ .xof then .next (raiseError .wrongFinalize (encode .finalXof) s)
  else .next (finalXofBody s)

/-- R320: READ n. NO_READER if no FINAL_XOF has made one. ALG is not read. -/
def execRead (n : BitVec 16) (s : State) : Host.Outcome State Fault Refusal :=
  if s.reader.valid then .next (readBody n.toNat s)
  else .next (raiseError .noReader (encode (.read n)) s)

end Sys2Proof.Machine
end

