-- ==== Sys2Proof/Machine/Dispatch.lean ====
section
/-! DEFINITION. One arm per command: exec answers what the command's meaning answers. -/

namespace Sys2Proof.Machine

def exec (i : Instr) (s : State) : Host.Outcome State Fault Refusal :=
  match i with
  | .init arg => Sys2Proof.Machine.execInit arg s
  | .update n => Sys2Proof.Machine.execUpdate n s
  | .final => Sys2Proof.Machine.execFinal s
  | .finalXof => Sys2Proof.Machine.execFinalXof s
  | .read n => Sys2Proof.Machine.execRead n s

end Sys2Proof.Machine
end

