-- ==== Sys2Proof/Machine/Intake.lean ====
section
/-! DEFINITION. What one transaction of the host does (spec/70_reset_and_hazards.md R390): a command word taken
(spec/30_encoding.md R102, R103), a response-port read (spec/20_memory.md R73), a status access (spec/10_state.md R50)
or a reset (R380). Each is given the state from which the transaction has been removed. -/

namespace Sys2Proof.Machine

/-- R103: header_word(w). -/
def headerWord (w : Word) (s : State) : Host.Outcome State Fault Refusal :=
  match decode w with
  | .command i => exec i s
  | .reject why => .next (raiseError (rejectCause why) w s)

/-- R102: the intake of a word, once the engine can take it: discarded while halted (R342), a payload word while PEND
is 1, a header word otherwise. -/
def takeWord (w : Word) (s : State) : Host.Outcome State Fault Refusal :=
  if s.err.halt then .next s
  else if s.frame.pend then .next (payloadWord w s)
  else headerWord w s

/-- R392: a header word is kept waiting while its command's output does not fit in OUT, whose capacity is `depth`. A
halted engine takes every word at once (R342), and a payload word always can be taken. -/
def mustWait (depth : Option Nat) (w : Word) (s : State) : Bool :=
  !s.err.halt && (!s.frame.pend && !roomFor depth (outNeeded w s) s)

/-- R73: a response-port read removes the byte at the head of OUT and returns it. On an empty OUT the host has no
read step. -/
def responseRead (s : State) : Host.Outcome State Fault Refusal :=
  match s.out with
  | [] => .fault .responseQueueEmpty
  | b :: bs => .next { s with out := bs, seen := s.seen ++ [.outByte b] }

/-- R392: while a command word waits, the host's response-port reads stay enabled: one that is outstanding in another
thread is made. With none the run is stuck: nothing changes, and the word waits on. -/
def drainStep (s : State) : State :=
  match s.drain, s.out with
  | n + 1, b :: bs => { s with out := bs, seen := s.seen ++ [.outByte b], drain := n }
  | _, _ => s

/-- R50, R57, R74: a status read returns a register and changes no state of the engine. -/
def statusRead (off : Nat) (s : State) : Host.Outcome State Fault Refusal :=
  match statusAt off s with
  | some v => .next { s with seen := s.seen ++ [.status off v] }
  | Option.none => .refused .statusOutsideWindow

/-- R50: a write to the window is ignored and has no side effect, at any byte offset in it: R56 leaves only reads to
the platform. A write outside the window is none of the core's (notes/assumptions/8.md). -/
def statusWrite (off : Nat) (s : State) : Host.Outcome State Fault Refusal :=
  if inStatusWindow off then .next s else .refused .statusOutsideWindow

/-- The host's next transaction, in a core whose OUT_DEPTH is `depth` (R11: a parameter). With none the engine is idle
and all state holds its value (R363). A command word that must wait stays the host's next transaction: the write does
not complete (R392). DESIGN CHOICE, notes/assumptions/21.md: R381 does not say what a reset does to a word that already
waits. The list is in the order of completion, so such a reset stands before the waiting write (the word is taken after
it) or in its place (`.reset (some w)`, the word is lost); one behind the write is asserted only once the write has
completed, and does not happen while it waits. -/
def hostStep (depth : Option Nat) (s : State) : Host.Outcome State Fault Refusal :=
  match s.host with
  | [] => .next s
  | .write w :: rest => if mustWait depth w s then .next (drainStep s) else takeWord w { s with host := rest }
  | .readOut :: rest => responseRead { s with host := rest }
  | .readStatus off :: rest => statusRead off { s with host := rest }
  | .writeStatus off _ :: rest => statusWrite off { s with host := rest }
  | .reset _ :: rest => .next (hardwareReset { s with host := rest })

/-- The state in which the next word taken is the header word w: no error, no payload pending, and w the host's next
write (R102). -/
def offerHeader (w : Word) (s : State) : State :=
  { s with err := ErrState.clear, frame := Frame.idle, host := .write w :: s.host }

end Sys2Proof.Machine
end

