-- ==== Sys2Proof/Machine/Step.lean ====
section
/-! DEFINITION. The step: one transaction of the host (spec/70_reset_and_hazards.md R390). -/

namespace Sys2Proof.Machine

/-- R390: a step is the taking of one command word, one response-port read, one status access or one reset, in a core
whose OUT_DEPTH is the platform's (R11). -/
def step (s : State) : Host.Outcome State Fault Refusal := hostStep Config.outDepth s

/-- `s` with the instruction whose bits are `w` as the next word that the engine takes as a header. HASHCORE fetches
nothing (R31): a program is the words that the host writes to the command port, so this stands for the host's next
write (notes/assumptions/5.md). -/
def State.withFetchWord (s : State) (nbits w : Nat) : State := offerHeader (BitVec.ofNat 32 (w % 2 ^ nbits)) s

end Sys2Proof.Machine
end

