-- ==== Sys2Proof/Machine/Assemble.lean ====
section
/-! DEFINITION. The assembler of spec/30_encoding.md R112: command streams to the words that a host writes. -/

namespace Sys2Proof.Machine

/-- R112: the commands and the pseudo-commands. -/
inductive AsmCmd where
  | init (alg : BitVec 8)
  | update (m : List Byte)
  | final
  | finalXof
  | read (n : BitVec 16)
  | word (w : Word)
  | nop
  | updateLong (m : List Byte)
  | readLong (n : Nat)
  | hash (alg : BitVec 8) (m : List Byte)
  | xof (alg : BitVec 8) (m : List Byte) (n : Nat)
deriving DecidableEq, Repr

/-- R104, R112: payload bytes packed four to a word, the first in bits [7:0], the unused bytes of the last word 0. -/
def packWords : List Byte → List Word
  | [] => []
  | [b0] => [le32 b0 0 0 0]
  | [b0, b1] => [le32 b0 b1 0 0]
  | [b0, b1, b2] => [le32 b0 b1 b2 0]
  | b0 :: b1 :: b2 :: b3 :: rest => le32 b0 b1 b2 b3 :: packWords rest

/-- The words of `UPDATE m`, for a chunk of at most 65535 bytes. -/
def updateWords (m : List Byte) : List Word := encode (.update (BitVec.ofNat 16 m.length)) :: packWords m

/-- R112: UPDATE_LONG: as many chunks of 65535 bytes as there are, then an UPDATE of the remainder. DESIGN CHOICE,
notes/assumptions/19.md: R112 defines it only for more than 65535 bytes, and HASH and XOF expand to it for any message.
A shorter or empty message is here one UPDATE of it, and after a whole number of chunks the remainder is UPDATE 0. -/
def updateLongWords (m : List Byte) : List Word :=
  (List.range (m.length / 65535)).flatMap (fun i => updateWords ((m.drop (65535 * i)).take 65535)) ++
    updateWords (m.drop (65535 * (m.length / 65535)))

/-- R112: READ_LONG: READ 65535 repeated ⌊n/65535⌋ times, then READ (n mod 65535). DESIGN CHOICE,
notes/assumptions/19.md: R112 defines it only for n > 65535, and XOF expands to it for any n. The same formula is used
for a smaller n: one READ n, and for n = 65535 also the READ 0 after it. -/
def readLongWords (n : Nat) : List Word :=
  List.replicate (n / 65535) (encode (.read 65535)) ++ [encode (.read (BitVec.ofNat 16 (n % 65535)))]

/-- R112: the words of a command or pseudo-command. -/
def assemble : AsmCmd → List Word
  | .init alg => [encode (.init alg)]
  | .update m => updateWords m
  | .final => [encode .final]
  | .finalXof => [encode .finalXof]
  | .read n => [encode (.read n)]
  | .word w => [w]
  | .nop => updateWords []
  | .updateLong m => updateLongWords m
  | .readLong n => readLongWords n
  | .hash alg m => encode (.init alg) :: (updateLongWords m ++ [encode .final])
  | .xof alg m n => encode (.init alg) :: (updateLongWords m ++ encode .finalXof :: readLongWords n)

end Sys2Proof.Machine
end

