-- ==== Sys2Proof/Machine/PadFsm.lean ====
section
/-! DEFINITION. The padding state machine (spec/40_block_buffer.md R151): the internal states through which an
implementation may sequence a FINAL or FINAL_XOF that has passed its checks. None but ACCUM is observable, so no
command's meaning runs it; a claim says that it ends where the atomic command ends. -/

namespace Sys2Proof.Machine

/-- R151: the six states. -/
inductive PadPhase where
  | accum
  | padFull
  | padFirst
  | padSpill
  | padLast
  | emit
deriving DecidableEq, Repr

/-- The padding state machine: its state, the block it is building, and the machine it works on. -/
structure PadFsm where
  phase : PadPhase
  blk : List Byte
  st : State
deriving DecidableEq, Repr

/-- R151, PAD_FIRST: the block with the 0x80 or PAD byte at offset FILL, and for a sponge bit 7 of its last byte. -/
def firstPadBlock (c : Context) : List Byte :=
  let cap := c.alg.cap
  if c.alg.kind = .md then bufHead c c.fill.toNat ++ [0x80] ++ zeros (cap - c.fill.toNat - 1)
  else
    let blk := bufHead c c.fill.toNat ++ [c.alg.pad] ++ zeros (cap - c.fill.toNat - 1)
    blk.set (cap - 1) (blk.getD (cap - 1) 0 ||| 0x80)

/-- R151, PAD_LAST: for RIPEMD-160 the length is written into the last 8 bytes. -/
def lastPadBlock (c : Context) (blk : List Byte) : List Byte :=
  if c.alg.kind = .md then blk.take (c.alg.cap - 8) ++ bytesLE 8 (bitLength c) else blk

/-- R151, EMIT: the finalize's output step: a digest, or a reader under an extendable-output algorithm. -/
def padOutput (s : State) : State :=
  if s.ctx.alg.kind = .xof then { s with reader := newReader s.ctx } else emit (digestOf s.ctx) s

/-- R151: one transition. In ACCUM a finalize starts. -/
def padFsmNext (m : PadFsm) : PadFsm :=
  match m.phase with
  | .accum => { m with phase := if m.st.ctx.fill.toNat = m.st.ctx.alg.cap then .padFull else .padFirst }
  | .padFull => { m with phase := .padFirst, st := { m.st with ctx := emptyFull m.st.ctx } }
  | .padFirst =>
    { m with
      phase :=
        if m.st.ctx.alg.kind = .md ∧ m.st.ctx.alg.cap - 8 < m.st.ctx.fill.toNat + 1 then .padSpill else .padLast
      blk := firstPadBlock m.st.ctx }
  | .padSpill =>
    { phase := .padLast, blk := zeros m.st.ctx.alg.cap, st := { m.st with ctx := block m.st.ctx m.blk } }
  | .padLast =>
    { m with
      phase := .emit
      st := { m.st with ctx := { block m.st.ctx (lastPadBlock m.st.ctx m.blk) with fill := 0 } } }
  | .emit => { m with phase := .accum, st := reinit (padOutput m.st) }

end Sys2Proof.Machine
end

