-- ==== Sys2Proof/Machine/Platform.lean ====
section
/-! DEFINITION. A platform with N_INSTANCES copies of the core (spec/60_exceptions.md R361): each has its own ports and
all of the state, and a step of the platform is a step of one copy. Which copy moves is the platform's choice. Storage
made unspecified in two copies at equal moments of theirs is given equal free values, which the spec does not say
(DESIGN CHOICE, notes/assumptions/20.md). -/

namespace Sys2Proof.Machine

/-- The copies on a platform (R11, R361). -/
abbrev Platform := Vector State Config.nInstances

/-- R361: copy i makes its step; the others share nothing with it. -/
def platformStep (i : Fin Config.nInstances) (p : Platform) : Host.Outcome Platform Fault Refusal :=
  match step p[i] with
  | .next t => .next (p.set i t)
  | .fault r => .fault r
  | .refused r => .refused r

end Sys2Proof.Machine
end

