-- ==== Sys2Proof/Machine/Reference.lean ====
section
/-! DEFINITION. The hash functions as functions of a whole message, with no buffer and no state: the padded message as
one byte string (spec/40_block_buffer.md R145, R147, R150), cut into blocks and folded. Claims compare the machine
with these; the machine never calls them. -/

namespace Sys2Proof.Machine

/-- The consecutive CAP-byte blocks of a string; a shorter rest is left out. -/
def blocksOf (cap : Nat) (m : List Byte) : List (List Byte) :=
  (List.range (m.length / cap)).map fun i => (m.drop (cap * i)).take cap

/-- What the blocks of a string leave: fewer than CAP bytes. -/
def restOf (cap : Nat) (m : List Byte) : List Byte := m.drop (cap * (m.length / cap))

/-- R145, R201: the message, 0x80, the least number of zeros, and the 8-byte bit length, a whole number of 64-byte
blocks. -/
def mdPadded (m : List Byte) : List Byte :=
  m ++ [0x80] ++ zeros ((119 - m.length % 64) % 64) ++ bytesLE 8 (BitVec.ofNat 64 (8 * m.length))

/-- R147, R149: the message and pad10*1 with the domain suffix: PAD, zeros and 0x80, which share one byte when only
one is left. -/
def spongePadded (cap : Nat) (pad : Byte) (m : List Byte) : List Byte :=
  if cap - m.length % cap = 1 then m ++ [pad ||| 0x80]
  else m ++ [pad] ++ zeros (cap - m.length % cap - 2) ++ [0x80]

/-- RIPEMD-160 of a message: the chaining words after its padded blocks. -/
def chainOf (m : List Byte) : Chain := (blocksOf 64 (mdPadded m)).foldl rmdCompress ripemdIV

/-- A sponge's state after a message and its padding block. -/
def spongeOf (a : Alg) (m : List Byte) : Lanes :=
  (blocksOf a.cap (spongePadded a.cap a.pad m)).foldl (absorb a.cap) (Vector.replicate 25 0)

/-- The digest of a message under an algorithm of kind md or fixed (R202, R263). -/
def hashOf (a : Alg) (m : List Byte) : List Byte :=
  if a.kind = .md then rmdDigest (chainOf m) else (stateBytes (spongeOf a m)).take a.outLen

/-- R267: byte k of the output stream of a reader whose state at creation is `rs0` and whose rate is `r`. -/
def streamByte (rs0 : Lanes) (r k : Nat) : Byte := stateByte (Nat.iterate keccakF (k / r) rs0) (k % r)

/-- The first n bytes of the output stream of a message under an extendable-output algorithm. -/
def xofOf (a : Alg) (m : List Byte) (n : Nat) : List Byte := (List.range n).map (streamByte (spongeOf a m) a.cap)

end Sys2Proof.Machine
end

