-- ==== Sys2Proof/Safety.lean ====
section
/-! DEFINITION. The terms that claims about HASHCORE are made in: the invariant of a reachable state, clean and stuck
runs, the order of the header checks as spec/60_exceptions.md R343 lists it, and what no observer can tell apart. -/

namespace Sys2Proof.Machine

/-- What the spec says holds of every reachable state. -/
structure Inv (s : State) : Prop where
  /-- R34: FILL < CAP(ALG) when an algorithm is selected. -/
  fill_lt : s.ctx.alg ≠ .none → s.ctx.fill.toNat < s.ctx.alg.cap
  /-- R34, R58: with none selected FILL and LEN are 0. -/
  unconfigured : s.ctx.alg = .none → s.ctx.fill = 0 ∧ s.ctx.len = 0
  /-- R9, R35: LEN does not pass LEN_MAX. -/
  len_le : s.ctx.len.toNat ≤ lenMax s.ctx.alg.kind
  /-- R48: under RIPEMD-160 the Keccak state is zero. -/
  md_state_zero : s.ctx.alg.kind = .md → s.ctx.s = Vector.replicate 25 0
  /-- R48: under a sponge the chaining words are the initial ones. -/
  sponge_chain_iv : s.ctx.alg.kind = .fixed ∨ s.ctx.alg.kind = .xof → s.ctx.h = ripemdIV
  /-- R42, R43: a reader belongs to an extendable-output algorithm, has its rate, and its cursor is within it. -/
  reader_ok : s.reader.valid = true →
    s.reader.alg.kind = .xof ∧ s.reader.rate.toNat = s.reader.alg.cap ∧ s.reader.pos.toNat ≤ s.reader.rate.toNat
  /-- R52, R58: with no reader since reset RALG, RRATE and RPOS are 0. -/
  no_reader : s.reader.valid = false → s.reader.alg = .none ∧ s.reader.rate = 0 ∧ s.reader.pos = 0
  /-- R320: a reader exists only after an INIT. -/
  reader_configured : s.reader.valid = true → s.ctx.alg ≠ .none
  /-- R44: CAUSE and ERR_WORD are 0 when HALT is 0. -/
  no_error : s.err.halt = false → s.err = ErrState.clear
  /-- R341: an error has a cause. -/
  error_cause : s.err.halt = true → s.err.cause ≠ .none
  /-- R340: an error leaves no payload pending. -/
  halted_idle : s.err.halt = true → s.frame = Frame.idle
  /-- R45: PEND = 0 means that PREM, PHDR and PDATA are 0 and empty. -/
  frame_idle : s.frame.pend = false → s.frame = Frame.idle
  /-- R45, R103: a pending payload is that of an accepted UPDATE header of N bytes, of which |PDATA| have arrived and
  PREM, at least 1, have not; and its N bytes keep LEN within LEN_MAX. -/
  frame_open : s.frame.pend = true →
    s.ctx.alg ≠ .none ∧ 1 ≤ s.frame.prem.toNat ∧
    ∃ n : BitVec 16, s.frame.phdr = encode (.update n) ∧ s.frame.pdata.length + s.frame.prem.toNat = n.toNat ∧
      s.ctx.len.toNat + n.toNat ≤ lenMax s.ctx.alg.kind
  /-- R37, R392: OUT holds at most OUT_DEPTH bytes. -/
  out_le : ∀ d, Config.outDepth = some d → s.out.length ≤ d

/-- A run is clean while no error has halted the engine (R342: a halted state is kept until reset). -/
def Clean (s : State) : Prop := s.err.halt = false

/-- The engine can look at a header word: it is not halted and no payload is pending (R102). -/
def Ready (s : State) : Prop := s.err.halt = false ∧ s.frame.pend = false

/-- R392: the host's next transaction is a command word that waits for room in OUT, and no other thread of the host
drains OUT: the run is stuck. A reset listed behind the word does not end the wait (notes/assumptions/21.md). -/
def StuckOnOutput (s : State) : Prop :=
  ∃ w rest, s.host = .write w :: rest ∧ mustWait Config.outDepth w s = true ∧ s.drain = 0

/-- R341, R343: each check of a header with the cause it raises, in the order of R343's list. -/
def headerChecks (w : Word) (s : State) : List (Bool × Cause) :=
  let opc := (opcField w).toNat
  let arg := (argField w).toNat
  let n := (nField w).toNat
  [ (decide (opc < 1 ∨ 5 < opc), .illegalOpcode),
    (decide (opc = 1 ∧ n ≠ 0), .reservedNonzero),
    (decide (opc = 1 ∧ (arg < 1 ∨ 7 < arg)), .badAlg),
    (decide (opc ≠ 1 ∧ arg ≠ 0), .reservedNonzero),
    (decide ((opc = 3 ∨ opc = 4) ∧ n ≠ 0), .reservedNonzero),
    (decide (opc = 5 ∧ s.reader.valid = false), .noReader),
    (decide ((opc = 2 ∨ opc = 3 ∨ opc = 4) ∧ s.ctx.alg = .none), .notConfigured),
    (decide (opc = 2 ∧ lenMax s.ctx.alg.kind < s.ctx.len.toNat + n), .lenOverflow),
    (decide (opc = 3 ∧ s.ctx.alg.kind = .xof), .wrongFinalize),
    (decide (opc = 4 ∧ s.ctx.alg.kind ≠ .xof), .wrongFinalize) ]

/-- R343: a header that fails several checks reports the first. -/
def headerError (w : Word) (s : State) : Option Cause :=
  ((headerChecks w s).find? fun p => p.1).map fun p => p.2

/-- R33, R47, R48, R58: two contexts that differ at most in what no rule reads: BUF at FILL and above, H unless ALG
is RIPEMD-160, S unless ALG is a sponge. -/
def SameVisibleContext (c d : Context) : Prop :=
  c.alg = d.alg ∧ c.fill = d.fill ∧ c.len = d.len ∧
  (∀ i : Fin 168, i.val < c.fill.toNat → c.buf[i] = d.buf[i]) ∧
  (c.alg.kind = .md → c.h = d.h) ∧
  (c.alg.kind = .fixed ∨ c.alg.kind = .xof → c.s = d.s)

/-- R42, R58: two reader slots that differ at most in RS when there is no reader. -/
def SameVisibleReader (r q : Reader) : Prop :=
  r.valid = q.valid ∧ r.alg = q.alg ∧ r.rate = q.rate ∧ r.pos = q.pos ∧ (r.valid = true → r.rs = q.rs)

/-- Two states that differ at most in storage which the spec gives no defined value, or which no rule reads, and in
the counter of the free values. -/
def SameVisible (s t : State) : Prop :=
  SameVisibleContext s.ctx t.ctx ∧ SameVisibleReader s.reader t.reader ∧ s.err = t.err ∧ s.frame = t.frame ∧
  s.out = t.out ∧ s.host = t.host ∧ s.seen = t.seen ∧ s.drain = t.drain

/-- Two outcomes of the same kind and reason, their next states the same but for what no observer can tell. -/
def SameVisibleOutcome (x y : Host.Outcome State Fault Refusal) : Prop :=
  match x, y with
  | .next s, .next t => SameVisible s t
  | .fault r, .fault q => r = q
  | .refused r, .refused q => r = q
  | _, _ => False

/-- The context is the one right after `INIT alg` (R312), BUF apart. -/
def FreshContext (a : Alg) (c : Context) : Prop :=
  c.alg = a ∧ c.fill = 0 ∧ c.len = 0 ∧ c.h = ripemdIV ∧ c.s = Vector.replicate 25 0

/-- R307: two contexts that stand at the same place of the same message: ALG, FILL, LEN, BUF[0..<FILL], H and S. -/
def SameProgress (c d : Context) : Prop :=
  c.alg = d.alg ∧ c.fill = d.fill ∧ c.len = d.len ∧ bufHead c c.fill.toNat = bufHead d d.fill.toNat ∧
  c.h = d.h ∧ c.s = d.s

/-- Chunks fed one after another: an UPDATE of a chunk runs UPDATE_BODY on it, and an empty UPDATE has no effect
(R306, R110). -/
def feed : List (List Byte) → State → State
  | [], s => s
  | m :: ms, s => feed ms (if m = [] then s else updateBody m s)

end Sys2Proof.Machine
end

