-- ==== Sys2Proof/Certificates/Slice0/Obligations.lean ====
section
/-! DEFINITION. The statements for the provers, each from a numbered rule of spec/. A statement about a command names
the whole next state: what the command writes and, in its frame, everything it leaves as it was. BUF at FILL and above
has no defined value (spec/10_state.md R33), so no statement says anything of it. HASHCORE has no memory (R75): the
frame's byte storage is BUF[0..<FILL], OUT and the frame state's PDATA. -/

open Sys2Proof Sys2Proof.Machine

/-! ### Encoding -/

/-- R101, R103, R105: the decoder gives back every encoded command, with every operand at every value, and reads a
command only from that command's own word. -/
def Obligations.DecodeInvertsEncode : Prop :=
  (∀ i : Instr, decode (encode i) = .command i) ∧ (∀ (w : Word) (i : Instr), decode w = .command i → w = encode i)

/-- The opcode table (spec/opcode_table.json): a word is read as a row's command exactly when its masked bits are the
row's match. -/
def Obligations.DecodeFollowsOpcodeTable : Prop :=
  ∀ w : Word,
    ((∃ a, decode w = .command (.init a)) ↔ w &&& 0xFF00FFFF = 0x01000000) ∧
    ((∃ n, decode w = .command (.update n)) ↔ w &&& 0xFFFF0000 = 0x02000000) ∧
    (decode w = .command .final ↔ w &&& 0xFFFFFFFF = 0x03000000) ∧
    (decode w = .command .finalXof ↔ w &&& 0xFFFFFFFF = 0x04000000) ∧
    ((∃ n, decode w = .command (.read n)) ↔ w &&& 0xFFFF0000 = 0x05000000)

/-- R109: a header whose opcode, bits [31:24], is 0x00 or 0x06 to 0xFF raises ILLEGAL_OPCODE; the all-zero word is
one. -/
def Obligations.IllegalOpcodesRaise : Prop :=
  (∀ (w : Word) (s : State), w.toNat / 2 ^ 24 = 0 ∨ 6 ≤ w.toNat / 2 ^ 24 →
    headerWord w s = .next (raiseError .illegalOpcode w s)) ∧
  (∀ s : State, headerWord 0 s = .next (raiseError .illegalOpcode 0 s))

/-- R108: a header with a nonzero reserved field raises RESERVED_NONZERO: N ≠ 0 in INIT, FINAL and FINAL_XOF, ARG ≠ 0
in UPDATE, FINAL, FINAL_XOF and READ. -/
def Obligations.ReservedFieldsRaise : Prop :=
  ∀ (opc arg : BitVec 8) (n : BitVec 16) (s : State),
    (opc = 1 ∧ n ≠ 0) ∨ ((opc = 2 ∨ opc = 5) ∧ arg ≠ 0) ∨ ((opc = 3 ∨ opc = 4) ∧ (arg ≠ 0 ∨ n ≠ 0)) →
    headerWord (headerOf opc arg n) s = .next (raiseError .reservedNonzero (headerOf opc arg n) s)

/-- R105, R113: words written out from the encodings decode to the commands they stand for. -/
def Obligations.DecodeWorkedWords : Prop :=
  decode 0x01010000 = .command (.init 1) ∧ decode 0x01030000 = .command (.init 3) ∧
  decode 0x01060000 = .command (.init 6) ∧ decode 0x02000003 = .command (.update 3) ∧
  decode 0x0200FFFF = .command (.update 65535) ∧ decode 0x03000000 = .command .final ∧
  decode 0x04000000 = .command .finalXof ∧ decode 0x05000020 = .command (.read 32)

/-- R113: the worked encodings of the assembler. -/
def Obligations.AssembleWorkedEncodings : Prop :=
  assemble (.init 1) = [0x01010000] ∧ assemble (.init 3) = [0x01030000] ∧ assemble (.init 6) = [0x01060000] ∧
  assemble (.update [0x61, 0x62, 0x63]) = [0x02000003, 0x00636261] ∧
  assemble (.update [0x61, 0x62, 0x63, 0x64]) = [0x02000004, 0x64636261] ∧
  assemble (.update [0x61, 0x62, 0x63, 0x64, 0x65]) = [0x02000005, 0x64636261, 0x00000065] ∧
  assemble .final = [0x03000000] ∧ assemble .finalXof = [0x04000000] ∧ assemble (.read 32) = [0x05000020]

/-! ### The step -/

/-- R102, R103, R390: when the host's next write is a header word that decodes to a command, and the engine can look
at it and has room for the command's output, the step is exec of that command, the write done. -/
def Obligations.StepRunsDecodedCommand : Prop :=
  ∀ (s : State) (w : Word) (rest : List HostOp) (i : Instr),
    s.host = .write w :: rest → Ready s → decode w = .command i → roomFor Config.outDepth (outBytes i s) s = true →
    step s = exec i { s with host := rest }

/-- R102: while PEND is 1 the step takes the word as payload, whatever its bits. -/
def Obligations.StepTakesPayloadWord : Prop :=
  ∀ (s : State) (w : Word) (rest : List HostOp),
    s.host = .write w :: rest → s.err.halt = false → s.frame.pend = true →
    step s = .next (payloadWord w { s with host := rest })

/-- R342: while HALT is 1 the engine takes and discards every word: only the host's list of writes gets shorter. -/
def Obligations.HaltedEngineDiscardsWords : Prop :=
  ∀ (s : State) (w : Word) (rest : List HostOp),
    s.host = .write w :: rest → s.err.halt = true → step s = .next { s with host := rest }

/-- R392, for every capacity that R392 allows: a header whose command's output does not fit in the free space of OUT
is not taken, and neither it nor anything behind it moves; a response-port read outstanding in another thread is made,
and without one the run is stuck. A header whose output fits is taken, and with an unbounded queue every one is. The
step is that of the platform's OUT_DEPTH, which is unbounded or at least 65535. That a reset listed behind a waiting word
does not happen while it waits is the model's choice (log entry 21). -/
def Obligations.FullQueueStallsCommandPort : Prop :=
  (∀ (d : Nat) (s : State) (w : Word) (rest : List HostOp),
    65535 ≤ d → s.host = .write w :: rest → Ready s →
    (d - s.out.length < outNeeded w s → s.drain = 0 → hostStep (some d) s = .next s) ∧
    (d - s.out.length < outNeeded w s → ∀ k b bs, s.drain = k + 1 → s.out = b :: bs →
      hostStep (some d) s = .next { s with out := bs, seen := s.seen ++ [.outByte b], drain := k }) ∧
    (outNeeded w s ≤ d - s.out.length → hostStep (some d) s = headerWord w { s with host := rest }) ∧
    hostStep none s = headerWord w { s with host := rest }) ∧
  (∀ s : State, step s = hostStep Config.outDepth s) ∧ (∀ d, Config.outDepth = some d → 65535 ≤ d)

/-- R363: with no transaction of the host the engine is idle and all state holds its value. -/
def Obligations.IdleEngineHoldsItsState : Prop := ∀ s : State, s.host = [] → step s = .next s

/-- R73: a response-port read removes the byte at the head of OUT and returns it, and nothing else changes. On an empty
OUT there is no read step. That the read is the head of the host's list, that the byte is returned by appending it to
`seen`, and that the missing step is a fault are the model's form (log entries 3, 4 and 7). -/
def Obligations.ResponseReadRemovesHead : Prop :=
  ∀ (s : State) (rest : List HostOp), s.host = .readOut :: rest →
    (∀ b bs, s.out = b :: bs →
      step s = .next { s with host := rest, out := bs, seen := s.seen ++ [.outByte b] }) ∧
    (s.out = [] → step s = .fault .responseQueueEmpty)

/-- R50, R56, R74: a read of the window returns the register at its offset, the two reserved offsets reading 0, in
any state of the engine, and changes nothing else; outside the window the model gives it no meaning. -/
def Obligations.StatusReadReturnsRegister : Prop :=
  ∀ (s : State) (off : Nat) (rest : List HostOp), s.host = .readStatus off :: rest →
    (∀ v, (off = 0x00 ∧ v = statusReg s) ∨ (off = 0x04 ∧ v = rdrStatusReg s) ∨ (off = 0x08 ∧ v = lenLoReg s) ∨
      (off = 0x0C ∧ v = lenHiReg s) ∨ (off = 0x10 ∧ v = errWordReg s) ∨ (off = 0x14 ∧ v = frameReg s) ∨
      (off = 0x18 ∧ v = 0) ∨ (off = 0x1C ∧ v = 0) →
      step s = .next { s with host := rest, seen := s.seen ++ [.status off v] }) ∧
    (32 ≤ off ∨ off % 4 ≠ 0 → step s = .refused .statusOutsideWindow)

/-- R50: a write to the window is ignored and has no side effect, at every byte offset in it, aligned or not. A write
outside the window is none of the core's, and the model refuses it (log entry 8). -/
def Obligations.StatusWriteIsIgnored : Prop :=
  ∀ (s : State) (off : Nat) (v : Word) (rest : List HostOp), s.host = .writeStatus off v :: rest →
    (off < 32 → step s = .next { s with host := rest }) ∧ (32 ≤ off → step s = .refused .statusOutsideWindow)

/-- R51 to R55: each field of each status register is a copy of the state element it names, and reserved bits read
0. -/
def Obligations.StatusFieldsCopyState : Prop :=
  ∀ s : State,
    (statusReg s).extractLsb' 0 3 = s.ctx.alg.code ∧ (statusReg s).getLsbD 3 = s.reader.valid ∧
    (statusReg s).getLsbD 4 = s.err.halt ∧ (statusReg s).getLsbD 5 = s.frame.pend ∧
    (statusReg s).extractLsb' 6 2 = 0 ∧ (statusReg s).extractLsb' 8 4 = s.err.cause.code ∧
    (statusReg s).extractLsb' 12 4 = 0 ∧ (statusReg s).extractLsb' 16 8 = s.ctx.fill ∧
    (statusReg s).extractLsb' 24 8 = 0 ∧
    (rdrStatusReg s).extractLsb' 0 8 = s.reader.pos ∧ (rdrStatusReg s).extractLsb' 8 8 = s.reader.rate ∧
    (rdrStatusReg s).extractLsb' 16 3 = s.reader.alg.code ∧ (rdrStatusReg s).extractLsb' 19 13 = 0 ∧
    (lenHiReg s).toNat * 2 ^ 32 + (lenLoReg s).toNat = s.ctx.len.toNat ∧
    errWordReg s = s.err.errWord ∧
    (frameReg s).extractLsb' 0 16 = s.frame.prem ∧ (frameReg s).extractLsb' 16 16 = 0

/-! ### Errors and reset -/

/-- R341, R343: a header raises the first error of the list of checks that it fails, recorded with the header word
itself, and only then. -/
def Obligations.HeaderReportsFirstFailedCheck : Prop :=
  ∀ (w : Word) (s : State),
    (∀ c, headerError w s = some c → headerWord w s = .next (raiseError c w s)) ∧
    (headerError w s = none → ∃ t, headerWord w s = .next t ∧ t.err = s.err)

/-- R340, R345: a header that fails a check writes HALT, CAUSE and ERR_WORD, the word being the header itself, empties
the frame state and changes nothing else: the context, the reader, OUT and the host's side keep their values. -/
def Obligations.ErrorEntryIsPrecise : Prop :=
  ∀ (c : Cause) (w : Word) (s : State), headerError w s = some c →
    ∃ t, headerWord w s = .next t ∧
      t.err.halt = true ∧ t.err.cause.code = c.code ∧ t.err.errWord = w ∧
      t.frame.pend = false ∧ t.frame.prem = 0 ∧ t.frame.phdr = 0 ∧ t.frame.pdata = [] ∧
      t.ctx = s.ctx ∧ t.reader = s.reader ∧ t.out = s.out ∧ t.host = s.host ∧ t.seen = s.seen ∧ t.drain = s.drain ∧
      t.free = s.free

/-- R342, R344: once an error has halted the engine no transaction but a reset changes HALT, CAUSE or ERR_WORD, nor
anything but OUT and the host's own side: at most one error is ever recorded between resets. -/
def Obligations.OnlyResetLeavesHalt : Prop :=
  ∀ (s t : State), s.err.halt = true → step s = .next t →
    (∀ w rest, s.host ≠ .reset w :: rest) →
    t.err = s.err ∧ t.ctx = s.ctx ∧ t.reader = s.reader ∧ t.frame = s.frame ∧ t.free = s.free

/-- R380, R381: a reset gives every element that has a reset value that value, discards OUT and a payload being
collected, and wins over a word that arrives with it; the host's remaining transactions stay. BUF, H, S and RS become
unspecified and nothing is said of them. -/
def Obligations.HardwareResetValues : Prop :=
  ∀ (s : State) (w : Option Word) (rest : List HostOp), s.host = .reset w :: rest →
    ∃ t, step s = .next t ∧
      t.ctx.alg = .none ∧ t.ctx.fill = 0 ∧ t.ctx.len = 0 ∧
      t.reader.valid = false ∧ t.reader.alg = .none ∧ t.reader.rate = 0 ∧ t.reader.pos = 0 ∧
      t.err.halt = false ∧ t.err.cause.code = 0 ∧ t.err.errWord = 0 ∧
      t.frame.pend = false ∧ t.frame.prem = 0 ∧ t.frame.phdr = 0 ∧ t.frame.pdata = [] ∧ t.out = [] ∧
      t.host = rest ∧ t.seen = s.seen ∧ t.drain = s.drain

/-- R58: every status register reads 0 right after reset (spec/95_test_vectors.md 2.6). -/
def Obligations.ResetStatusRegistersReadZero : Prop :=
  ∀ off, off ∈ [0x00, 0x04, 0x08, 0x0C, 0x10, 0x14, 0x18, 0x1C] → statusAt off State.reset = some 0

/-- R73, R56, R50: a step faults only on a response-port read of an empty OUT and is refused only on a status read
outside the window or at an offset that is no multiple of 4, or a status write outside it. Every other step answers a
next state, that of a command word waiting for room in OUT among them. The fault, the refusals and the waiting step are
the model's readings (log entries 7, 8 and 6). -/
def Obligations.StepStopsOnlyWhereTheSpecStops : Prop :=
  ∀ s : State,
    ((∃ f, step s = .fault f) ↔ ∃ rest, s.host = .readOut :: rest ∧ s.out = []) ∧
    ((∃ r, step s = .refused r) ↔
      (∃ off rest, s.host = .readStatus off :: rest ∧ ¬ (off < 32 ∧ off % 4 = 0)) ∨
      (∃ off v rest, s.host = .writeStatus off v :: rest ∧ 32 ≤ off))

/-! ### INIT -/

/-- R301, R106: INIT of a code 1 to 7 completes: ALG is the algorithm of that code and the context is in its initial
state; the reader slot, OUT, the frame and error state and the host's side are untouched. -/
def Obligations.InitSelectsAlgorithm : Prop :=
  ∀ (arg : BitVec 8) (s : State), 1 ≤ arg.toNat → arg.toNat ≤ 7 →
    ∃ t, exec (.init arg) s = .next t ∧
      t.ctx.alg.code.toNat = arg.toNat ∧ t.ctx.fill = 0 ∧ t.ctx.len = 0 ∧
      t.ctx.h = #v[0x67452301, 0xEFCDAB89, 0x98BADCFE, 0x10325476, 0xC3D2E1F0] ∧
      (∀ i : Fin 25, t.ctx.s[i] = 0) ∧
      t.reader = s.reader ∧ t.err = s.err ∧ t.frame = s.frame ∧ t.out = s.out ∧ t.host = s.host ∧
      t.seen = s.seen ∧ t.drain = s.drain

/-- R106: the codes 1 to 7 of INIT are RIPEMD160, SHA3_224, SHA3_256, SHA3_384, SHA3_512, SHAKE128 and SHAKE256; the
values 0 and 8 to 255 are illegal and raise BAD_ALG, with the INIT's own header word. -/
def Obligations.InitArgSelectsOrRaises : Prop :=
  (∀ (s : State) (p : BitVec 8 × Alg),
    p ∈ [(1, .ripemd160), (2, .sha3_224), (3, .sha3_256), (4, .sha3_384), (5, .sha3_512), (6, .shake128),
      (7, Alg.shake256)] →
    ∃ t, exec (.init p.1) s = .next t ∧ t.ctx.alg = p.2) ∧
  (∀ (arg : BitVec 8) (s : State), arg.toNat = 0 ∨ 8 ≤ arg.toNat →
    exec (.init arg) s = .next (raiseError .badAlg (headerOf 1 arg 0) s))

/-! ### UPDATE -/

/-- R103, R305: an UPDATE header of n > 0 bytes that keeps LEN within LEN_MAX completes: the decoder waits for n
payload bytes and nothing else changes. -/
def Obligations.UpdateOpensPayload : Prop :=
  ∀ (n : BitVec 16) (s : State), s.ctx.alg ≠ .none → s.ctx.len.toNat + n.toNat ≤ lenMax s.ctx.alg.kind → n ≠ 0 →
    exec (.update n) s =
      .next { s with frame := { pend := true, phdr := headerOf 2 0 n, prem := n, pdata := [] } }

/-- R305: an UPDATE with no algorithm selected raises NOT_CONFIGURED; one that would grow the message past 2^61 − 1
bytes for RIPEMD-160 or 2^64 − 1 bytes for a sponge raises LEN_OVERFLOW. -/
def Obligations.UpdateHeaderErrors : Prop :=
  ∀ (n : BitVec 16) (s : State),
    (s.ctx.alg = .none →
      exec (.update n) s = .next (raiseError .notConfigured (headerOf 2 0 n) s)) ∧
    (s.ctx.alg = .ripemd160 → 2 ^ 61 - 1 < s.ctx.len.toNat + n.toNat →
      exec (.update n) s = .next (raiseError .lenOverflow (headerOf 2 0 n) s)) ∧
    (s.ctx.alg ≠ .none → s.ctx.alg ≠ .ripemd160 → 2 ^ 64 - 1 < s.ctx.len.toNat + n.toNat →
      exec (.update n) s = .next (raiseError .lenOverflow (headerOf 2 0 n) s))

/-- R110: UPDATE 0 with an algorithm selected and READ 0 with a reader have no effect on any state; without them they
raise NOT_CONFIGURED and NO_READER. LEN within LEN_MAX (R35) rules out states no run reaches. -/
def Obligations.EmptyUpdateAndReadHaveNoEffect : Prop :=
  ∀ s : State,
    (s.ctx.alg ≠ .none → s.ctx.len.toNat ≤ lenMax s.ctx.alg.kind → exec (.update 0) s = .next s) ∧
    (s.reader.valid = true → exec (.read 0) s = .next s) ∧
    (s.ctx.alg = .none → exec (.update 0) s = .next (raiseError .notConfigured 0x02000000 s)) ∧
    (s.reader.valid = false → exec (.read 0) s = .next (raiseError .noReader 0x05000000 s))

/-- R104: a payload word gives min(4, PREM) bytes, its bytes from bit 0 up, to PDATA and takes them off PREM. If that
leaves some to come, nothing else changes; if not, UPDATE_BODY runs on all of PDATA and the decoder expects a header
(PEND 0, PHDR 0, PREM 0, PDATA empty). The other bytes of the word have no effect. -/
def Obligations.PayloadWordFeedsDecoder : Prop :=
  ∀ (w : Word) (s : State), s.frame.pend = true → 1 ≤ s.frame.prem.toNat →
    (s.frame.prem.toNat ≤ 4 →
      ∃ u, updateBody (s.frame.pdata ++ (bytesLE 4 w).take s.frame.prem.toNat) s = u ∧
        payloadWord w s = { u with frame := Frame.idle }) ∧
    (4 < s.frame.prem.toNat →
      payloadWord w s =
        { s with frame :=
          { s.frame with
            prem := BitVec.ofNat 16 (s.frame.prem.toNat - 4)
            pdata := s.frame.pdata ++ bytesLE 4 w } })

/-- R143, R144: process hands to BLOCK, in order, the consecutive CAP-byte blocks of BUF[0..<FILL] ++ data, and
leaves the rest as BUF[0..<FILL]; in particular it makes ⌊(F + n)/CAP⌋ calls and leaves FILL = (F + n) mod CAP. ALG
and LEN are not written. -/
def Obligations.ProcessSplitsIntoBlocks : Prop :=
  ∀ (data : List Byte) (c : Context), c.alg ≠ .none → c.fill.toNat < c.alg.cap →
    let m := bufHead c c.fill.toNat ++ data
    let d := process data c
    (blocksOf c.alg.cap m).length = (c.fill.toNat + data.length) / c.alg.cap ∧
    d.fill.toNat = (c.fill.toNat + data.length) % c.alg.cap ∧
    d.h = ((blocksOf c.alg.cap m).foldl block c).h ∧ d.s = ((blocksOf c.alg.cap m).foldl block c).s ∧
    bufHead d d.fill.toNat = restOf c.alg.cap m ∧ d.alg = c.alg ∧ d.len = c.len

/-- R306, R35: UPDATE_BODY adds the data's length to LEN, exactly, and processes the data; the reader, OUT, the error
and frame state and the host's side are untouched. The premises are those an accepted header gives (R103) and R34. -/
def Obligations.UpdateBodyCountsAndProcesses : Prop :=
  ∀ (data : List Byte) (s : State), s.ctx.alg ≠ .none → s.ctx.fill.toNat < s.ctx.alg.cap →
    s.ctx.len.toNat + data.length ≤ lenMax s.ctx.alg.kind →
    let t := updateBody data s
    let d := process data s.ctx
    t.ctx.len.toNat = s.ctx.len.toNat + data.length ∧ t.ctx.alg = s.ctx.alg ∧ t.ctx.fill = d.fill ∧
    t.ctx.h = d.h ∧ t.ctx.s = d.s ∧ bufHead t.ctx t.ctx.fill.toNat = bufHead d d.fill.toNat ∧
    t.reader = s.reader ∧ t.err = s.err ∧ t.frame = s.frame ∧ t.out = s.out ∧ t.host = s.host ∧ t.seen = s.seen ∧
    t.drain = s.drain

/-- R307: for every algorithm and every message, any two splits of it into consecutive chunks, empty ones allowed,
leave the same FILL, LEN, BUF[0..<FILL], H and S. -/
def Obligations.StreamingInvariance : Prop :=
  ∀ (ms ns : List (List Byte)) (s : State), s.ctx.alg ≠ .none → ms.flatten = ns.flatten →
    SameProgress (feed ms s).ctx (feed ns s).ctx

/-! ### Padding -/

/-- R145, R146: with F bytes of the last block, length_pad hands over one block when F ≤ 55 and two when F is 56 to
63, each of 64 bytes: the F bytes, 0x80, zeros, and the 8 bytes of the length at the end of the last. -/
def Obligations.LengthPadBlocksByOffset : Prop :=
  ∀ (pre : List Byte) (bitlen : BitVec 64), pre.length < 64 →
    let bs := lengthPadBlocks 64 pre bitlen
    (∀ b ∈ bs, b.length = 64) ∧
    (pre.length ≤ 55 → bs.length = 1) ∧ (56 ≤ pre.length → bs.length = 2) ∧
    (∀ j, j < pre.length → bs.flatten[j]? = pre[j]?) ∧
    bs.flatten[pre.length]? = some 0x80 ∧
    (∀ j, pre.length < j → j + 8 < bs.flatten.length → bs.flatten[j]? = some 0) ∧
    (∀ k, k < 8 → bs.flatten[bs.flatten.length - 8 + k]? = some (byteOf bitlen k))

/-- R147, R149: pad_with hands over exactly one block of CAP bytes: the FILL message bytes unchanged, PAD at offset
FILL, zeros, and 0x80 or-ed into the last byte; PAD and 0x80 share the last byte when FILL = CAP − 1. Then FILL is
0. -/
def Obligations.PadWithOneBlock : Prop :=
  ∀ (c : Context), c.alg.kind = .fixed ∨ c.alg.kind = .xof → c.fill.toNat < c.alg.cap →
    ∃ b : List Byte, padWith c.alg.pad c = { block c b with fill := 0 } ∧ b.length = c.alg.cap ∧
      (∀ j, j < c.fill.toNat → b[j]? = (c.buf.toList)[j]?) ∧
      (c.fill.toNat < c.alg.cap - 1 →
        b[c.fill.toNat]? = some c.alg.pad ∧
        (∀ j, c.fill.toNat < j → j < c.alg.cap - 1 → b[j]? = some 0) ∧ b[c.alg.cap - 1]? = some 0x80) ∧
      (c.fill.toNat = c.alg.cap - 1 → b[c.alg.cap - 1]? = some (c.alg.pad ||| 0x80))

/-- R150: a message of n bytes, fed by any sequence of UPDATEs and then finalized, is handed to BLOCK as exactly
⌈(n + 9)/64⌉ blocks for RIPEMD-160 and ⌊n/CAP⌋ + 1 blocks for a sponge, each of CAP bytes: H and S after the padding are
BLOCK of those blocks in order. The blocks are those that cutting the message and the padding operation give, and of a
message within LEN_MAX they are the padded message. FILL = 0 is the start of a message (R301). -/
def Obligations.PaddedLengthIsWholeBlocks : Prop :=
  ∀ (ms : List (List Byte)) (s : State), s.ctx.alg ≠ .none → s.ctx.fill = 0 →
    let m := ms.flatten
    let cap := s.ctx.alg.cap
    let c := (feed ms s).ctx
    let bs := blocksOf cap m ++
      (if s.ctx.alg.kind = .md then lengthPadBlocks cap (restOf cap m) (bitLength c)
       else [padWithBlock cap s.ctx.alg.pad (restOf cap m)])
    (finalPad c).h = (bs.foldl block s.ctx).h ∧ (finalPad c).s = (bs.foldl block s.ctx).s ∧
    (∀ b ∈ bs, b.length = cap) ∧
    bs.length = (if s.ctx.alg.kind = .md then (m.length + 9 + 63) / 64 else m.length / cap + 1) ∧
    (s.ctx.len = 0 → m.length ≤ lenMax s.ctx.alg.kind →
      bs.flatten = if s.ctx.alg.kind = .md then mdPadded m else spongePadded cap s.ctx.alg.pad m)

/-- R151: sequencing a finalize through the padding state machine gives the state of the atomic command, and no state
in between is ACCUM. FILL < CAP (R34) rules out states no run reaches. -/
def Obligations.PaddingStateMachineRefinesFinalize : Prop :=
  ∀ (s : State) (blk : List Byte), s.ctx.alg ≠ .none → s.ctx.fill.toNat < s.ctx.alg.cap →
    ∃ k, (k = 4 ∨ k = 5) ∧
      (Nat.iterate padFsmNext k { phase := .accum, blk := blk, st := s }).phase = .accum ∧
      (Nat.iterate padFsmNext k { phase := .accum, blk := blk, st := s }).st =
        (if s.ctx.alg.kind = .xof then finalXofBody s else finalBody s) ∧
      (∀ j, 0 < j → j < k → (Nat.iterate padFsmNext j { phase := .accum, blk := blk, st := s }).phase ≠ .accum)

/-! ### FINAL, FINAL_XOF, READ -/

/-- R311, R202, R145, R201: FINAL under RIPEMD-160 completes: the padded last block or blocks are compressed into H,
the five words go to OUT little-endian in the order h0..h4, and the context is as after INIT; all else is
untouched. -/
def Obligations.FinalEmitsRipemdDigest : Prop :=
  ∀ s : State, s.ctx.alg = .ripemd160 → s.ctx.fill.toNat < 64 → s.ctx.len.toNat ≤ 2 ^ 61 - 1 →
    ∃ t, exec .final s = .next t ∧
      (∀ h : Chain,
        h = (lengthPadBlocks 64 (bufHead s.ctx s.ctx.fill.toNat) (s.ctx.len <<< 3)).foldl rmdCompress s.ctx.h →
        t.out = s.out ++ bytesLE 4 h[0] ++ bytesLE 4 h[1] ++ bytesLE 4 h[2] ++ bytesLE 4 h[3] ++ bytesLE 4 h[4]) ∧
      (s.ctx.len <<< 3).toNat = 8 * s.ctx.len.toNat ∧ FreshContext .ripemd160 t.ctx ∧
      t.reader = s.reader ∧ t.err = s.err ∧ t.frame = s.frame ∧ t.host = s.host ∧ t.seen = s.seen ∧
      t.drain = s.drain

/-- R263, R311: FINAL under SHA-3 completes: the one padding block is absorbed, the leading OUTLEN bytes of the state
go to OUT, and the context is as after INIT; all else is untouched. -/
def Obligations.FinalEmitsSha3Digest : Prop :=
  ∀ s : State, s.ctx.alg.kind = .fixed → s.ctx.fill.toNat < s.ctx.alg.cap →
    ∃ t, exec .final s = .next t ∧
      t.out = s.out ++
        (stateBytes (absorb s.ctx.alg.cap s.ctx.s
          (padWithBlock s.ctx.alg.cap 0x06 (bufHead s.ctx s.ctx.fill.toNat)))).take s.ctx.alg.outLen ∧
      FreshContext s.ctx.alg t.ctx ∧
      t.reader = s.reader ∧ t.err = s.err ∧ t.frame = s.frame ∧ t.host = s.host ∧ t.seen = s.seen ∧
      t.drain = s.drain

/-- R264, R265, R316: FINAL_XOF under SHAKE completes: the one padding block is absorbed, the reader is that state
with the algorithm's rate and its cursor at 0, no byte is emitted, and the context is as after INIT; all else is
untouched. -/
def Obligations.FinalXofCreatesReader : Prop :=
  ∀ s : State, s.ctx.alg.kind = .xof → s.ctx.fill.toNat < s.ctx.alg.cap →
    ∃ t, exec .finalXof s = .next t ∧
      t.reader.valid = true ∧ t.reader.alg = s.ctx.alg ∧ t.reader.rate.toNat = s.ctx.alg.cap ∧ t.reader.pos = 0 ∧
      t.reader.rs = absorb s.ctx.alg.cap s.ctx.s
        (padWithBlock s.ctx.alg.cap 0x1F (bufHead s.ctx s.ctx.fill.toNat)) ∧
      FreshContext s.ctx.alg t.ctx ∧
      t.out = s.out ∧ t.err = s.err ∧ t.frame = s.frame ∧ t.host = s.host ∧ t.seen = s.seen ∧ t.drain = s.drain

/-- R310, R315, R320: FINAL and FINAL_XOF with no algorithm raise NOT_CONFIGURED; FINAL under SHAKE and FINAL_XOF
under any other algorithm raise WRONG_FINALIZE; READ with no reader raises NO_READER. -/
def Obligations.FinalizeAndReadErrors : Prop :=
  ∀ s : State,
    (s.ctx.alg = .none →
      exec .final s = .next (raiseError .notConfigured 0x03000000 s) ∧
      exec .finalXof s = .next (raiseError .notConfigured 0x04000000 s)) ∧
    (s.ctx.alg.kind = .xof → exec .final s = .next (raiseError .wrongFinalize 0x03000000 s)) ∧
    (s.ctx.alg.kind = .md ∨ s.ctx.alg.kind = .fixed →
      exec .finalXof s = .next (raiseError .wrongFinalize 0x04000000 s)) ∧
    (∀ n : BitVec 16, s.reader.valid = false →
      exec (.read n) s = .next (raiseError .noReader (headerOf 5 0 n) s))

/-- R312: after FINAL the context equals the context right after `INIT ALG`. -/
def Obligations.FinalLeavesContextOfInit : Prop :=
  ∀ (s t u : State), s.ctx.alg ≠ .none → s.ctx.alg.kind ≠ .xof →
    exec .final s = .next t → exec (.init (s.ctx.alg.code.zeroExtend 8)) s = .next u →
    SameProgress t.ctx u.ctx ∧ t.ctx.fill = 0 ∧ t.ctx.len = 0 ∧ t.ctx.h = ripemdIV ∧
      t.ctx.s = Vector.replicate 25 0

/-- R266, R320: READ n with a reader completes: it appends to OUT the next n bytes of the reader's window, permuting
RS only when a byte is needed and the window is exhausted; the context, the error and frame state and the host's side
are untouched, and so are RVALID, RALG and RRATE. One byte at a time, this is the whole of READ. -/
def Obligations.ReadEmitsNextBytes : Prop :=
  (∀ (n : BitVec 16) (s : State), s.reader.valid = true →
    ∃ t, exec (.read n) s = .next t ∧
      t.out = s.out ++ (squeeze n.toNat s.reader).1 ∧ t.reader = (squeeze n.toNat s.reader).2 ∧
      t.out.length = s.out.length + n.toNat ∧
      t.reader.valid = true ∧ t.reader.alg = s.reader.alg ∧ t.reader.rate = s.reader.rate ∧
      t.ctx = s.ctx ∧ t.err = s.err ∧ t.frame = s.frame ∧ t.host = s.host ∧ t.seen = s.seen ∧
      t.drain = s.drain) ∧
  (∀ (k : Nat) (r : Reader),
    (r.pos = r.rate →
      squeeze (k + 1) r =
        (stateByte (keccakF r.rs) 0 :: (squeeze k { r with rs := keccakF r.rs, pos := 1 }).1,
          (squeeze k { r with rs := keccakF r.rs, pos := 1 }).2)) ∧
    (r.pos ≠ r.rate →
      squeeze (k + 1) r =
        (stateByte r.rs r.pos.toNat :: (squeeze k { r with pos := r.pos + 1 }).1,
          (squeeze k { r with pos := r.pos + 1 }).2)))

/-- R267: byte k of all that is read from a fresh reader is byte k mod r of its state permuted k div r times, and
after t bytes RPOS is 0 if t = 0 and ((t − 1) mod r) + 1 otherwise. -/
def Obligations.ReaderStream : Prop :=
  ∀ (r : Reader) (n : Nat), r.pos = 0 → 0 < r.rate.toNat →
    (squeeze n r).1 = (List.range n).map (streamByte r.rs r.rate.toNat) ∧
    (squeeze n r).2.pos.toNat = if n = 0 then 0 else (n - 1) % r.rate.toNat + 1

/-- R268: reading n and then m bytes emits the same bytes and leaves the same reader as reading n + m. -/
def Obligations.SqueezeContinuity : Prop :=
  ∀ (n m : Nat) (r : Reader),
    squeeze (n + m) r =
      ((squeeze n r).1 ++ (squeeze m (squeeze n r).2).1, (squeeze m (squeeze n r).2).2)

/-- R395, R262: READ n from cursor p in a window of r bytes permutes RS exactly ⌈max(0, p + n − r)/r⌉ times, whatever
the bytes are. -/
def Obligations.ReadPermutationCount : Prop :=
  ∀ (n : Nat) (r : Reader), r.pos.toNat ≤ r.rate.toNat → 0 < r.rate.toNat →
    (squeeze n r).2.rs =
      Nat.iterate keccakF ((r.pos.toNat + n - r.rate.toNat + (r.rate.toNat - 1)) / r.rate.toNat) r.rs

/-- R321, R42: READ does not change the context, and INIT, UPDATE with its payload, and FINAL do not change the reader
slot. -/
def Obligations.ContextAndReaderIndependent : Prop :=
  (∀ (n : BitVec 16) (s t : State), exec (.read n) s = .next t → t.ctx = s.ctx) ∧
  (∀ (i : Instr) (s t : State), i ≠ .finalXof → (∀ n, i ≠ .read n) → exec i s = .next t → t.reader = s.reader) ∧
  (∀ (w : Word) (s : State), (payloadWord w s).reader = s.reader)

/-- R37, R392, R394: a command adds to the tail of OUT exactly the out(c) bytes that R392 gives it, keeping what was
there in front: OUTLEN for a FINAL and n for a READ n that pass every check, and none otherwise. -/
def Obligations.CommandsEmitTheirCount : Prop :=
  ∀ (i : Instr) (s t : State), exec i s = .next t → ∃ bs, t.out = s.out ++ bs ∧ bs.length = outBytes i s

/-! ### The engines -/

/-- R192, R230, R232: worked examples: RIPEMD-160's compression of the padding block of the empty message, one round
and the whole permutation of the zero state. -/
def Obligations.EngineWorkedExamples : Prop :=
  rmdCompress ripemdIV (0x80 :: zeros 63) = #v[0xA585119C, 0x54FCE9C5, 0x97082861, 0x48F5E87E, 0x318D25B2] ∧
  keccakRound (Vector.replicate 25 0) 0 = (Vector.replicate 25 0).set 0 0x0000000000000001 ∧
  (keccakF (Vector.replicate 25 0))[0] = 0xF1258F7940E1DDE7

/-- R8, R9: the algorithm table: code, kind, block size, digest length, pad byte, capacity, and the length limit. An
extendable output has no digest length, and RIPEMD-160 no pad byte. -/
def Obligations.AlgorithmTable : Prop :=
  (∀ r ∈ [(Alg.sha3_224, 2, 144, 28, 448), (Alg.sha3_256, 3, 136, 32, 512), (Alg.sha3_384, 4, 104, 48, 768),
      (Alg.sha3_512, 5, 72, 64, 1024)],
    r.1.code.toNat = r.2.1 ∧ r.1.kind = .fixed ∧ r.1.cap = r.2.2.1 ∧ r.1.outLen = r.2.2.2.1 ∧ r.1.pad = 0x06 ∧
      r.1.capacityBits = some r.2.2.2.2) ∧
  (∀ r ∈ [(Alg.shake128, 6, 168, 256), (Alg.shake256, 7, 136, 512)],
    r.1.code.toNat = r.2.1 ∧ r.1.kind = .xof ∧ r.1.cap = r.2.2.1 ∧ r.1.pad = 0x1F ∧
      r.1.capacityBits = some r.2.2.2) ∧
  (Alg.ripemd160.code = 1 ∧ Alg.ripemd160.kind = .md ∧ Alg.ripemd160.cap = 64 ∧ Alg.ripemd160.outLen = 20) ∧
  (Alg.none.code = 0 ∧ Alg.none.kind = .none) ∧
  lenMax .md = 2305843009213693951 ∧ lenMax .fixed = 18446744073709551615 ∧ lenMax .xof = 18446744073709551615

/-- R185, R186, R187, R188: each row of the word selections is a permutation of 0..15, and every rotation amount lies
between 5 and 15. -/
def Obligations.RipemdTablesWellFormed : Prop :=
  (∀ row ∈ rmdRL ++ rmdRR, ∀ k, k < 16 → row.count k = 1) ∧ (∀ row ∈ rmdRL ++ rmdRR, row.length = 16) ∧
  (∀ j, j < 80 → 5 ≤ rmdEntry rmdSL j ∧ rmdEntry rmdSL j ≤ 15 ∧ 5 ≤ rmdEntry rmdSR j ∧ rmdEntry rmdSR j ≤ 15)

/-- R39: SB(S) is 200 bytes, byte j being bits [8·(j mod 8)+7 : 8·(j mod 8)] of S[j div 8]. -/
def Obligations.StateByteView : Prop :=
  ∀ S : Lanes, (stateBytes S).length = 200 ∧
    ∀ (j : Nat) (h : j < 200), (stateBytes S)[j]? = some (stateByte S j) ∧
      stateByte S j = (S[j / 8]'(by omega)).extractLsb' (8 * (j % 8)) 8

/-- R227: lane (x, y) rotates by ROT[x][y] and moves to position (y, 2x + 3y mod 5), for every x and y; and every
position is reached by exactly one lane. -/
def Obligations.RhoPiMovesEachLane : Prop :=
  (∀ (A : Lanes) (x y : Nat), x < 5 → y < 5 →
    lane (rhoPi A) y ((2 * x + 3 * y) % 5) = rol (lane A x y) (rotOffset x y)) ∧
  (∀ u v, u < 5 → v < 5 → ∃ x, x < 5 ∧ (2 * x + 3 * u) % 5 = v ∧
    ∀ x', x' < 5 → (2 * x' + 3 * u) % 5 = v → x' = x)

/-- R233: the formulas of FIPS 202 agree with the tables of round constants and rotation offsets on every entry. -/
def Obligations.KeccakTablesFollowFormulas : Prop :=
  (∀ i, i < 24 → keccakRC[i]? = some (keccakRCByFormula i)) ∧ keccakRC.length = 24 ∧ rotOffset 0 0 = 0 ∧
  (∀ t, t < 24 → rotOffset (rotWalk t).1 (rotWalk t).2 = (t + 1) * (t + 2) / 2 % 64) ∧
  (∀ x y, x < 5 → y < 5 → (x, y) ≠ (0, 0) → ∃ t, t < 24 ∧ rotWalk t = (x, y))

/-- R232: the step mappings lose nothing: two different states never map to one, under each mapping and under
KECCAK_F. -/
def Obligations.KeccakPermutationIsInjective : Prop :=
  (∀ A B : Lanes, theta A = theta B → A = B) ∧ (∀ A B : Lanes, rhoPi A = rhoPi B → A = B) ∧
  (∀ A B : Lanes, chi A = chi B → A = B) ∧ (∀ (A B : Lanes) (i : Nat), iota A i = iota B i → A = B) ∧
  (∀ A B : Lanes, keccakF A = keccakF B → A = B)

/-- R261: absorbing XORs byte j of the block into byte j of the state for j below CAP, leaves the other bytes, and
then permutes. -/
def Obligations.AbsorbXorsLeadingBytes : Prop :=
  ∀ (a : Alg) (S : Lanes) (b : List Byte), b.length = a.cap →
    absorb a.cap S b = keccakF (xorBlock a.cap S b) ∧
    (∀ (j : Nat) (h : j < b.length), stateByte (xorBlock a.cap S b) j = stateByte S j ^^^ b[j]) ∧
    (∀ j, a.cap ≤ j → j < 200 → stateByte (xorBlock a.cap S b) j = stateByte S j)

/-! ### The whole machine -/

/-- R58: the invariant holds right after reset. The reset values the model chose for BUF, H, S and RS
(notes/assumptions/1.md) are not among what it says. -/
def Obligations.InvariantHoldsAtReset : Prop := Inv State.reset

/-- R34, R35, R37, R42 to R45, R48: every step keeps the invariant: FILL below CAP, LEN within LEN_MAX, the reader's
cursor within its window, the error and frame state consistent, OUT within OUT_DEPTH. -/
def Obligations.StepKeepsInvariant : Prop := ∀ s t : State, Inv s → step s = .next t → Inv t

/-- R33, R47, R48, R58: what no rule reads cannot be observed: from two states that differ at most in storage without
a defined value, a step gives outcomes that differ at most in such storage. -/
def Obligations.UndefinedStorageIsNeverObserved : Prop :=
  ∀ s t : State, SameVisible s t → SameVisibleOutcome (step s) (step t)

/-- R112, R310: `HASH alg, m` on an engine between commands emits the digest of m: writing the words of INIT,
UPDATE_LONG m and FINAL, one step a word, puts hash(m) at the tail of OUT, whatever message was partly fed before,
and leaves a fresh context. The room in OUT is that of the least capacity. The words of a message of at most 65535 bytes,
or of a whole number of 65535 bytes, are the model's choice (log entry 19). -/
def Obligations.HashProgramEmitsDigest : Prop :=
  ∀ (a : Alg) (m : List Byte) (s : State) (rest : List HostOp),
    a.kind = .md ∨ a.kind = .fixed → m.length ≤ lenMax a.kind → Ready s → s.frame = Frame.idle →
    s.out.length + 64 ≤ 65535 →
    s.host = (assemble (.hash (a.code.zeroExtend 8) m)).map .write ++ rest →
    ∃ t, Host.Core.run Sys2Proof.core (assemble (.hash (a.code.zeroExtend 8) m)).length s = .next t ∧
      t.out = s.out ++ hashOf a m ∧ FreshContext a t.ctx ∧ t.host = rest ∧ t.err = s.err ∧
      t.frame = Frame.idle ∧ t.reader = s.reader ∧ t.seen = s.seen

/-- R112, R315, R267: `XOF alg, m, n` on an engine between commands emits the first n bytes of the output stream of
m. The room in OUT is that of the least capacity; a longer output needs reads of OUT in between. The words of a message
or a read of at most 65535 bytes, and of a message of a whole number of 65535 bytes, are the model's choice (log
entry 19). -/
def Obligations.XofProgramEmitsStream : Prop :=
  ∀ (a : Alg) (m : List Byte) (n : Nat) (s : State) (rest : List HostOp),
    a.kind = .xof → m.length ≤ lenMax a.kind → Ready s → s.frame = Frame.idle →
    s.out.length + n ≤ 65535 →
    s.host = (assemble (.xof (a.code.zeroExtend 8) m n)).map .write ++ rest →
    ∃ t, Host.Core.run Sys2Proof.core (assemble (.xof (a.code.zeroExtend 8) m n)).length s = .next t ∧
      t.out = s.out ++ xofOf a m n ∧ FreshContext a t.ctx ∧ t.host = rest ∧ t.err = s.err ∧
      t.frame = Frame.idle ∧ t.reader.valid = true ∧ t.reader.alg = a ∧ t.seen = s.seen

/-- R361: a step of one copy of the core on a platform is a step of that copy alone: no other copy changes. -/
def Obligations.InstancesAreIndependent : Prop :=
  ∀ (i : Fin Config.nInstances) (p q : Platform), platformStep i p = .next q →
    step p[i] = .next q[i] ∧ ∀ j : Fin Config.nInstances, j ≠ i → q[j] = p[j]
end

