-- ==== Sys2Proof/Laws/Operands.lean ====
section
/-! SUPPORT. The algorithm table, the checks on operands, and the room in OUT. -/

namespace Sys2Proof.Machine

/-- R8: every algorithm but NONE has a block of at least 64 and at most 168 bytes. -/
theorem cap_bounds (a : Alg) (h : a ≠ .none) : 64 ≤ a.cap ∧ a.cap ≤ 168 := by
  cases a <;> simp [Alg.cap] at h ⊢

theorem cap_le (a : Alg) : a.cap ≤ 168 := by cases a <;> simp [Alg.cap]

theorem cap_pos (a : Alg) (h : a ≠ .none) : 0 < a.cap := by have := cap_bounds a h; omega

/-- R261: every rate is a multiple of 8. -/
theorem cap_mod_eight (a : Alg) : a.cap % 8 = 0 := by cases a <;> rfl

/-- R263: a digest fits in the leading window. -/
theorem outLen_le_cap (a : Alg) : a.outLen ≤ a.cap := by cases a <;> simp [Alg.outLen, Alg.cap]

theorem outLen_le (a : Alg) : a.outLen ≤ 64 := by cases a <;> simp [Alg.outLen]

@[simp] theorem kind_eq_none_iff (a : Alg) : a.kind = .none ↔ a = .none := by
  cases a <;> simp [Alg.kind]

@[simp] theorem kind_eq_md_iff (a : Alg) : a.kind = .md ↔ a = .ripemd160 := by
  cases a <;> simp [Alg.kind]

/-- R9: a length within LEN_MAX fits in 64 bits. -/
theorem lenMax_lt (k : Kind) : lenMax k < 2 ^ 64 := by cases k <;> simp [lenMax]

/-- R106: INIT selects an algorithm exactly for the codes 1 to 7, the one of that code. -/
theorem algOfArg_eq_some_iff (arg : BitVec 8) (a : Alg) :
    algOfArg arg = some a ↔ a ≠ .none ∧ arg = a.code.zeroExtend 8 := by
  constructor
  · intro h
    unfold algOfArg at h
    repeat' split at h
    all_goals first
      | (cases h; subst_vars; decide)
      | cases h
  · rintro ⟨hn, rfl⟩
    cases a <;> first | exact absurd rfl hn | decide

theorem algOfArg_ne_none (arg : BitVec 8) (a : Alg) (h : algOfArg arg = some a) : a ≠ .none :=
  ((algOfArg_eq_some_iff arg a).1 h).1

/-- R103: the length check, as arithmetic without wrap. -/
theorem lenOverflows_iff (c : Context) (n : BitVec 16) :
    lenOverflows c n = true ↔ lenMax c.alg.kind < c.len.toNat + n.toNat := by
  simp [lenOverflows]

/-- R11, R392: a finite OUT_DEPTH is at least 65535. -/
theorem outDepth_ge (d : Nat) (h : Config.outDepth = some d) : 65535 ≤ d := by
  unfold Config.outDepth at h
  cases hx : Config.outDepthExtra <;> simp [hx] at h
  omega

/-- R392: in a queue of at least the least capacity there is room exactly when the free space is at least `need`. -/
theorem roomFor_iff (depth : Option Nat) (hdepth : ∀ d, depth = some d → 65535 ≤ d) (need : Nat) (s : State) :
    roomFor depth need s = true ↔ ∀ d, depth = some d → need ≤ d - s.out.length := by
  unfold roomFor
  constructor
  · intro h d hd
    have hge := hdepth d hd
    simp [hd] at h
    omega
  · intro h
    cases hd : depth with
    | none => simp
    | some d => simp [h d hd]

/-- R392: what fits in the least capacity always has room. -/
theorem roomFor_of_le (depth : Option Nat) (need : Nat) (s : State) (h : s.out.length + need ≤ 65535) :
    roomFor depth need s = true := by
  simp [roomFor, h]

@[simp] theorem roomFor_zero (depth : Option Nat) (s : State) : roomFor depth 0 s = true := by simp [roomFor]

/-- R392: what a command puts into OUT, when there was room for it, stays within OUT_DEPTH. -/
theorem out_le_of_roomFor (need : Nat) (s : State) (h : roomFor Config.outDepth need s = true)
    (hs : ∀ d, Config.outDepth = some d → s.out.length ≤ d) (d : Nat) (hd : Config.outDepth = some d) :
    s.out.length + need ≤ d := by
  have h1 := (roomFor_iff Config.outDepth outDepth_ge need s).1 h d hd
  have h2 := hs d hd
  omega

end Sys2Proof.Machine
end

