-- ==== Sys2Proof/Laws/Buffer.lean ====
section
/-! SUPPORT. What BLOCK, process and the paddings can change: of the context they write BUF, FILL, and H or S as ALG
selects (spec/40_block_buffer.md R141, R143, R145, R147). -/

namespace Sys2Proof.Machine

/-! ### BLOCK (R141) -/

@[simp] theorem block_alg (c : Context) (b : List Byte) : (block c b).alg = c.alg := by
  unfold block; split <;> rfl

@[simp] theorem block_buf (c : Context) (b : List Byte) : (block c b).buf = c.buf := by
  unfold block; split <;> rfl

@[simp] theorem block_fill (c : Context) (b : List Byte) : (block c b).fill = c.fill := by
  unfold block; split <;> rfl

@[simp] theorem block_len (c : Context) (b : List Byte) : (block c b).len = c.len := by
  unfold block; split <;> rfl

/-- R141, R200: under RIPEMD-160 a block is compressed into H. -/
theorem block_md (c : Context) (b : List Byte) (h : c.alg.kind = .md) :
    block c b = { c with h := rmdCompress c.h b } := by simp only [block, h, if_true]

/-- R141, R261: under a sponge a block is absorbed into S. -/
theorem block_sponge (c : Context) (b : List Byte) (h : c.alg.kind ≠ .md) :
    block c b = { c with s := absorb c.alg.cap c.s b } := by simp only [block, h, if_false]

theorem block_s_of_md (c : Context) (b : List Byte) (h : c.alg.kind = .md) : (block c b).s = c.s := by
  rw [block_md c b h]

theorem block_h_of_sponge (c : Context) (b : List Byte) (h : c.alg.kind ≠ .md) : (block c b).h = c.h := by
  rw [block_sponge c b h]

/-! ### Several blocks -/

@[simp] theorem foldl_block_alg (bs : List (List Byte)) (c : Context) : (bs.foldl block c).alg = c.alg := by
  induction bs generalizing c with
  | nil => rfl
  | cons b bs ih => simp [ih]

@[simp] theorem foldl_block_buf (bs : List (List Byte)) (c : Context) : (bs.foldl block c).buf = c.buf := by
  induction bs generalizing c with
  | nil => rfl
  | cons b bs ih => simp [ih]

@[simp] theorem foldl_block_len (bs : List (List Byte)) (c : Context) : (bs.foldl block c).len = c.len := by
  induction bs generalizing c with
  | nil => rfl
  | cons b bs ih => simp [ih]

theorem foldl_block_s_of_md (bs : List (List Byte)) (c : Context) (h : c.alg.kind = .md) :
    (bs.foldl block c).s = c.s := by
  induction bs generalizing c with
  | nil => rfl
  | cons b bs ih => simp only [List.foldl_cons]; rw [ih _ (by simpa using h), block_s_of_md c b h]

theorem foldl_block_h_of_sponge (bs : List (List Byte)) (c : Context) (h : c.alg.kind ≠ .md) :
    (bs.foldl block c).h = c.h := by
  induction bs generalizing c with
  | nil => rfl
  | cons b bs ih => simp only [List.foldl_cons]; rw [ih _ (by simpa using h), block_h_of_sponge c b h]

/-! ### The full buffer -/

@[simp] theorem emptyFull_alg (c : Context) : (emptyFull c).alg = c.alg := by simp [emptyFull]
@[simp] theorem emptyFull_buf (c : Context) : (emptyFull c).buf = c.buf := by simp [emptyFull]
@[simp] theorem emptyFull_len (c : Context) : (emptyFull c).len = c.len := by simp [emptyFull]
@[simp] theorem emptyFull_fill (c : Context) : (emptyFull c).fill = 0 := by simp [emptyFull]

@[simp] theorem emptyIfFull_alg (c : Context) : (emptyIfFull c).alg = c.alg := by unfold emptyIfFull; split <;> simp
@[simp] theorem emptyIfFull_len (c : Context) : (emptyIfFull c).len = c.len := by unfold emptyIfFull; split <;> simp

/-- R34, R146, R149: with FILL below CAP the first branch of a padding is not taken. -/
theorem emptyIfFull_of_lt (c : Context) (h : c.fill.toNat < c.alg.cap) : emptyIfFull c = c := by
  unfold emptyIfFull
  rw [if_neg (by omega)]

/-! ### process (R143) -/

@[simp] theorem process_nil (c : Context) : process [] c = c := rfl

@[simp] theorem process_cons (d : Byte) (ds : List Byte) (c : Context) :
    process (d :: ds) c = process ds (processByte c d) := rfl

/-- R307 rests on this: bytes fed in two parts are the bytes fed at once. -/
theorem process_append (ds es : List Byte) (c : Context) : process (ds ++ es) c = process es (process ds c) := by
  simp [process, List.foldl_append]

@[simp] theorem processByte_alg (c : Context) (d : Byte) : (processByte c d).alg = c.alg := by
  unfold processByte; dsimp only; split <;> simp

@[simp] theorem processByte_len (c : Context) (d : Byte) : (processByte c d).len = c.len := by
  unfold processByte; dsimp only; split <;> simp

@[simp] theorem process_alg (ds : List Byte) (c : Context) : (process ds c).alg = c.alg := by
  induction ds generalizing c with
  | nil => rfl
  | cons d ds ih => simp [ih]

@[simp] theorem process_len (ds : List Byte) (c : Context) : (process ds c).len = c.len := by
  induction ds generalizing c with
  | nil => rfl
  | cons d ds ih => simp [ih]

theorem processByte_s_of_md (c : Context) (d : Byte) (h : c.alg.kind = .md) : (processByte c d).s = c.s := by
  unfold processByte; dsimp only
  split
  · unfold emptyFull; dsimp only; exact block_s_of_md _ _ h
  · rfl

theorem processByte_h_of_sponge (c : Context) (d : Byte) (h : c.alg.kind ≠ .md) : (processByte c d).h = c.h := by
  unfold processByte; dsimp only
  split
  · unfold emptyFull; dsimp only; exact block_h_of_sponge _ _ h
  · rfl

/-- R48: under RIPEMD-160 process leaves the Keccak state alone. -/
theorem process_s_of_md (ds : List Byte) (c : Context) (h : c.alg.kind = .md) : (process ds c).s = c.s := by
  induction ds generalizing c with
  | nil => rfl
  | cons d ds ih => rw [process_cons, ih _ (by simpa using h), processByte_s_of_md c d h]

/-- R48: under a sponge process leaves the chaining words alone. -/
theorem process_h_of_sponge (ds : List Byte) (c : Context) (h : c.alg.kind ≠ .md) : (process ds c).h = c.h := by
  induction ds generalizing c with
  | nil => rfl
  | cons d ds ih => rw [process_cons, ih _ (by simpa using h), processByte_h_of_sponge c d h]

/-- R34: a byte leaves FILL below CAP. -/
theorem processByte_fill_lt (c : Context) (d : Byte) (hc : c.fill.toNat < c.alg.cap) :
    (processByte c d).fill.toNat < c.alg.cap := by
  have hcap := cap_le c.alg
  have hfill : (c.fill + 1).toNat = c.fill.toNat + 1 := by
    rw [BitVec.toNat_add]; simp; omega
  unfold processByte; dsimp only
  split
  · simp; omega
  · rename_i hne
    dsimp only at hne ⊢
    omega

/-- R34: after any process call FILL is below CAP. -/
theorem process_fill_lt (ds : List Byte) (c : Context) (hc : c.fill.toNat < c.alg.cap) :
    (process ds c).fill.toNat < c.alg.cap := by
  induction ds generalizing c with
  | nil => exact hc
  | cons d ds ih =>
    have := ih (processByte c d) (by simpa using processByte_fill_lt c d hc)
    simpa using this

/-! ### The paddings (R145, R147) -/

@[simp] theorem lengthPad_alg (n : BitVec 64) (c : Context) : (lengthPad n c).alg = c.alg := by simp [lengthPad]
@[simp] theorem lengthPad_len (n : BitVec 64) (c : Context) : (lengthPad n c).len = c.len := by simp [lengthPad]
@[simp] theorem lengthPad_fill (n : BitVec 64) (c : Context) : (lengthPad n c).fill = 0 := rfl
@[simp] theorem padWith_alg (p : Byte) (c : Context) : (padWith p c).alg = c.alg := by simp [padWith]
@[simp] theorem padWith_len (p : Byte) (c : Context) : (padWith p c).len = c.len := by simp [padWith]
@[simp] theorem padWith_fill (p : Byte) (c : Context) : (padWith p c).fill = 0 := rfl

@[simp] theorem finalPad_alg (c : Context) : (finalPad c).alg = c.alg := by unfold finalPad; split <;> simp
@[simp] theorem finalPad_len (c : Context) : (finalPad c).len = c.len := by unfold finalPad; split <;> simp
@[simp] theorem finalPad_fill (c : Context) : (finalPad c).fill = 0 := by unfold finalPad; split <;> simp

@[simp] theorem zeros_length (n : Nat) : (zeros n).length = n := by simp [zeros]

@[simp] theorem bytesLE_length {w : Nat} (n : Nat) (v : BitVec w) : (bytesLE n v).length = n := by simp [bytesLE]

@[simp] theorem rmdDigest_length (h : Chain) : (rmdDigest h).length = 20 := by
  simp [rmdDigest, List.length_flatMap]

/-- R311: a digest has OUTLEN(ALG) bytes. -/
@[simp] theorem digestOf_length (c : Context) : (digestOf c).length = c.alg.outLen := by
  unfold digestOf
  split
  · rename_i h
    rw [kind_eq_md_iff] at h
    simp [h, Alg.outLen]
  · simp

@[simp] theorem bufHead_length (c : Context) (n : Nat) : (bufHead c n).length = min n 168 := by simp [bufHead]

end Sys2Proof.Machine
end

