-- ==== Sys2Proof/Laws/Decode.lean ====
section
/-! SUPPORT. The fields of a header word built from its fields. -/

namespace Sys2Proof

/-- R101: the header word as a number: OPC · 2^24 + ARG · 2^16 + N. -/
theorem headerOf_toNat (opc arg : BitVec 8) (n : BitVec 16) :
    (headerOf opc arg n).toNat = opc.toNat * 2 ^ 24 + arg.toNat * 2 ^ 16 + n.toNat := by
  have ha := arg.isLt
  have hn := n.isLt
  unfold headerOf
  rw [BitVec.toNat_append, BitVec.toNat_append, ← Nat.shiftLeft_add_eq_or_of_lt ha,
    ← Nat.shiftLeft_add_eq_or_of_lt hn, Nat.shiftLeft_eq, Nat.shiftLeft_eq]
  omega

/-- R101: OPC as a number. -/
theorem opcField_toNat (w : Word) : (opcField w).toNat = w.toNat / 2 ^ 24 := by
  have := w.isLt
  simp only [opcField, BitVec.extractLsb'_toNat, Nat.shiftRight_eq_div_pow]
  omega

/-- R101: ARG as a number. -/
theorem argField_toNat (w : Word) : (argField w).toNat = w.toNat / 2 ^ 16 % 2 ^ 8 := by
  simp only [argField, BitVec.extractLsb'_toNat, Nat.shiftRight_eq_div_pow]

/-- R101: N as a number. -/
theorem nField_toNat (w : Word) : (nField w).toNat = w.toNat % 2 ^ 16 := by
  simp [nField, BitVec.extractLsb'_toNat]

@[simp] theorem opcField_headerOf (opc arg : BitVec 8) (n : BitVec 16) : opcField (headerOf opc arg n) = opc := by
  apply BitVec.eq_of_toNat_eq
  have := arg.isLt; have := n.isLt
  rw [opcField_toNat, headerOf_toNat]
  omega

@[simp] theorem argField_headerOf (opc arg : BitVec 8) (n : BitVec 16) : argField (headerOf opc arg n) = arg := by
  apply BitVec.eq_of_toNat_eq
  have := arg.isLt; have := n.isLt
  rw [argField_toNat, headerOf_toNat]
  omega

@[simp] theorem nField_headerOf (opc arg : BitVec 8) (n : BitVec 16) : nField (headerOf opc arg n) = n := by
  apply BitVec.eq_of_toNat_eq
  have := n.isLt
  rw [nField_toNat, headerOf_toNat]
  omega

/-- R101: a word is the header of its three fields. -/
theorem headerOf_fields (w : Word) : headerOf (opcField w) (argField w) (nField w) = w := by
  apply BitVec.eq_of_toNat_eq
  rw [headerOf_toNat, opcField_toNat, argField_toNat, nField_toNat]
  omega

end Sys2Proof
end

