-- ==== Sys2Proof/Laws/Keccak.lean ====
section
/-! SUPPORT. Reading a lane of each step mapping's result (spec/42_keccak.md R221, R226 to R229), and the reader's
operations (spec/43_sponge.md R266). -/

namespace Sys2Proof.Machine

/-- R221: the arithmetic on x and y is mod 5. -/
theorem lane_mod (A : Lanes) (x y : Nat) : lane A (x % 5) (y % 5) = lane A x y := by
  simp [lane]

/-- R221: lane (x, y) of the state made of `f`. -/
theorem lane_ofGrid (f : Nat → Nat → Lane) (x y : Nat) : lane (ofGrid f) x y = f (x % 5) (y % 5) := by
  have h1 : (x % 5 + 5 * (y % 5)) % 5 = x % 5 := by omega
  have h2 : (x % 5 + 5 * (y % 5)) / 5 = y % 5 := by omega
  simp only [lane, ofGrid, Vector.getElem_ofFn, h1, h2]

/-- R221: two states with the same lanes are the same. -/
theorem lanes_ext (A B : Lanes) (h : ∀ x y, x < 5 → y < 5 → lane A x y = lane B x y) : A = B := by
  apply Vector.ext
  intro i hi
  have := h (i % 5) (i / 5) (by omega) (by omega)
  have e : i % 5 % 5 + 5 * (i / 5 % 5) = i := by omega
  simpa only [lane, e] using this

theorem lane_theta (A : Lanes) (x y : Nat) (hx : x < 5) (hy : y < 5) :
    lane (theta A) x y = lane A x y ^^^ columnEffect A x := by
  rw [theta, lane_ofGrid, Nat.mod_eq_of_lt hx, Nat.mod_eq_of_lt hy]

theorem lane_rhoPi (A : Lanes) (u v : Nat) (hu : u < 5) (hv : v < 5) :
    lane (rhoPi A) u v = rol (lane A (u + 3 * v) u) (rotOffset ((u + 3 * v) % 5) u) := by
  rw [rhoPi, lane_ofGrid, Nat.mod_eq_of_lt hu, Nat.mod_eq_of_lt hv]

theorem lane_chi (B : Lanes) (x y : Nat) (hx : x < 5) (hy : y < 5) :
    lane (chi B) x y = lane B x y ^^^ (~~~(lane B (x + 1) y) &&& lane B (x + 2) y) := by
  rw [chi, lane_ofGrid, Nat.mod_eq_of_lt hx, Nat.mod_eq_of_lt hy]

/-- R229: ι changes lane (0, 0). -/
theorem iota_get_zero (A : Lanes) (i : Nat) : (iota A i)[0] = A[0] ^^^ keccakRC.getD i 0 := by simp [iota]

/-- R229: ι changes no other lane. -/
theorem iota_get_of_ne (A : Lanes) (i j : Nat) (hj : j < 25) (h : j ≠ 0) : (iota A i)[j] = A[j] := by
  simp [iota, Ne.symm h]

/-- R231: one more round. -/
theorem keccakRounds_succ (A : Lanes) (n : Nat) : keccakRounds A (n + 1) = keccakRound (keccakRounds A n) n := by
  simp [keccakRounds, List.range_succ]

@[simp] theorem keccakRounds_zero (A : Lanes) : keccakRounds A 0 = A := rfl

/-! ### The reader (R266) -/

@[simp] theorem refill_valid (r : Reader) : (refill r).valid = r.valid := by unfold refill; split <;> rfl
@[simp] theorem refill_alg (r : Reader) : (refill r).alg = r.alg := by unfold refill; split <;> rfl
@[simp] theorem refill_rate (r : Reader) : (refill r).rate = r.rate := by unfold refill; split <;> rfl

@[simp] theorem squeezeByte_valid (r : Reader) : (squeezeByte r).2.valid = r.valid := by simp [squeezeByte]
@[simp] theorem squeezeByte_alg (r : Reader) : (squeezeByte r).2.alg = r.alg := by simp [squeezeByte]
@[simp] theorem squeezeByte_rate (r : Reader) : (squeezeByte r).2.rate = r.rate := by simp [squeezeByte]

@[simp] theorem squeeze_zero (r : Reader) : squeeze 0 r = ([], r) := rfl

theorem squeeze_succ (n : Nat) (r : Reader) :
    squeeze (n + 1) r =
      ((squeezeByte r).1 :: (squeeze n (squeezeByte r).2).1, (squeeze n (squeezeByte r).2).2) := rfl

@[simp] theorem squeeze_length (n : Nat) (r : Reader) : (squeeze n r).1.length = n := by
  induction n generalizing r with
  | zero => rfl
  | succ n ih => simp [squeeze_succ, ih]

@[simp] theorem squeeze_valid (n : Nat) (r : Reader) : (squeeze n r).2.valid = r.valid := by
  induction n generalizing r with
  | zero => rfl
  | succ n ih => simp [squeeze_succ, ih]

@[simp] theorem squeeze_alg (n : Nat) (r : Reader) : (squeeze n r).2.alg = r.alg := by
  induction n generalizing r with
  | zero => rfl
  | succ n ih => simp [squeeze_succ, ih]

@[simp] theorem squeeze_rate (n : Nat) (r : Reader) : (squeeze n r).2.rate = r.rate := by
  induction n generalizing r with
  | zero => rfl
  | succ n ih => simp [squeeze_succ, ih]

/-- R43: a byte keeps the cursor within the window. -/
theorem squeezeByte_pos_le (r : Reader) (h : r.pos.toNat ≤ r.rate.toNat) (h0 : 0 < r.rate.toNat) :
    (squeezeByte r).2.pos.toNat ≤ r.rate.toNat := by
  have hr := r.rate.isLt
  simp only [squeezeByte, refill]
  split
  · simp; omega
  · rename_i hne
    have hlt : r.pos.toNat ≠ r.rate.toNat := fun e => hne (BitVec.eq_of_toNat_eq e)
    rw [BitVec.toNat_add]
    simp
    omega

/-- R43: READ keeps the cursor within the window. -/
theorem squeeze_pos_le (n : Nat) (r : Reader) (h : r.pos.toNat ≤ r.rate.toNat) (h0 : 0 < r.rate.toNat) :
    (squeeze n r).2.pos.toNat ≤ r.rate.toNat := by
  induction n generalizing r with
  | zero => exact h
  | succ n ih =>
    have := ih (squeezeByte r).2 (by simpa using squeezeByte_pos_le r h h0) (by simpa using h0)
    simpa [squeeze_succ] using this

end Sys2Proof.Machine
end

