-- ==== Sys2Proof/Laws/PerInstr.lean ====
section
/-! SUPPORT. Statements made per command, one lemma a constructor of Instr. -/

namespace Sys2Proof.Laws.HeaderFields

/-- R101, R105: the header word of a command holds its opcode in OPC, and in ARG and N its operand or, where the field
is reserved, 0. -/
def Statement (i : Instr) : Prop :=
  opcField (encode i) = (match i with | .init _ => 1 | .update _ => 2 | .final => 3 | .finalXof => 4 | .read _ => 5) ∧
  argField (encode i) = (match i with | .init a => a | _ => 0) ∧
  nField (encode i) = (match i with | .update n => n | .read n => n | _ => 0)

theorem init (arg : BitVec 8) : Statement (.init arg) := by simp [Statement, encode]

theorem update (n : BitVec 16) : Statement (.update n) := by simp [Statement, encode]

theorem final : Statement .final := by simp [Statement, encode]

theorem finalXof : Statement .finalXof := by simp [Statement, encode]

theorem read (n : BitVec 16) : Statement (.read n) := by simp [Statement, encode]

end Sys2Proof.Laws.HeaderFields
end

