-- ==== Sys2Proof/Laws/State.lean ====
section
/-! SUPPORT. What each operation of Machine/Ops.lean does to each field of the state: one lemma a field, so that no
proof unfolds a record update. The BUF of an operation that makes bytes unspecified has its own lemmas. -/

namespace Sys2Proof.Machine

/-! ### Emitting (R14, R37) -/

@[simp] theorem emit_ctx (bs : List Byte) (s : State) :
    (emit bs s).ctx = s.ctx := rfl

@[simp] theorem emit_reader (bs : List Byte) (s : State) :
    (emit bs s).reader = s.reader := rfl

@[simp] theorem emit_err (bs : List Byte) (s : State) :
    (emit bs s).err = s.err := rfl

@[simp] theorem emit_frame (bs : List Byte) (s : State) :
    (emit bs s).frame = s.frame := rfl

@[simp] theorem emit_out (bs : List Byte) (s : State) :
    (emit bs s).out = s.out ++ bs := rfl

@[simp] theorem emit_host (bs : List Byte) (s : State) :
    (emit bs s).host = s.host := rfl

@[simp] theorem emit_seen (bs : List Byte) (s : State) :
    (emit bs s).seen = s.seen := rfl

@[simp] theorem emit_drain (bs : List Byte) (s : State) :
    (emit bs s).drain = s.drain := rfl

@[simp] theorem emit_free (bs : List Byte) (s : State) :
    (emit bs s).free = s.free := rfl

/-! ### Forgetting the bytes above FILL (R33) -/

@[simp] theorem forgetStale_ctx_alg (s : State) :
    (forgetStale s).ctx.alg = s.ctx.alg := rfl

@[simp] theorem forgetStale_ctx_fill (s : State) :
    (forgetStale s).ctx.fill = s.ctx.fill := rfl

@[simp] theorem forgetStale_ctx_len (s : State) :
    (forgetStale s).ctx.len = s.ctx.len := rfl

@[simp] theorem forgetStale_ctx_h (s : State) :
    (forgetStale s).ctx.h = s.ctx.h := rfl

@[simp] theorem forgetStale_ctx_s (s : State) :
    (forgetStale s).ctx.s = s.ctx.s := rfl

@[simp] theorem forgetStale_reader (s : State) :
    (forgetStale s).reader = s.reader := rfl

@[simp] theorem forgetStale_err (s : State) :
    (forgetStale s).err = s.err := rfl

@[simp] theorem forgetStale_frame (s : State) :
    (forgetStale s).frame = s.frame := rfl

@[simp] theorem forgetStale_out (s : State) :
    (forgetStale s).out = s.out := rfl

@[simp] theorem forgetStale_host (s : State) :
    (forgetStale s).host = s.host := rfl

@[simp] theorem forgetStale_seen (s : State) :
    (forgetStale s).seen = s.seen := rfl

@[simp] theorem forgetStale_drain (s : State) :
    (forgetStale s).drain = s.drain := rfl

@[simp] theorem forgetStale_free (s : State) :
    (forgetStale s).free = s.free + 1 := rfl

/-! ### Re-initialisation (R301) -/

@[simp] theorem reinit_ctx_alg (s : State) :
    (reinit s).ctx.alg = s.ctx.alg := rfl

@[simp] theorem reinit_ctx_fill (s : State) :
    (reinit s).ctx.fill = 0 := rfl

@[simp] theorem reinit_ctx_len (s : State) :
    (reinit s).ctx.len = 0 := rfl

@[simp] theorem reinit_ctx_h (s : State) :
    (reinit s).ctx.h = ripemdIV := rfl

@[simp] theorem reinit_ctx_s (s : State) :
    (reinit s).ctx.s = Vector.replicate 25 0 := rfl

@[simp] theorem reinit_reader (s : State) :
    (reinit s).reader = s.reader := rfl

@[simp] theorem reinit_err (s : State) :
    (reinit s).err = s.err := rfl

@[simp] theorem reinit_frame (s : State) :
    (reinit s).frame = s.frame := rfl

@[simp] theorem reinit_out (s : State) :
    (reinit s).out = s.out := rfl

@[simp] theorem reinit_host (s : State) :
    (reinit s).host = s.host := rfl

@[simp] theorem reinit_seen (s : State) :
    (reinit s).seen = s.seen := rfl

@[simp] theorem reinit_drain (s : State) :
    (reinit s).drain = s.drain := rfl

@[simp] theorem reinit_free (s : State) :
    (reinit s).free = s.free + 1 := rfl

/-! ### Error entry (R340) -/

@[simp] theorem raiseError_ctx (c : Cause) (w : Word) (s : State) :
    (raiseError c w s).ctx = s.ctx := rfl

@[simp] theorem raiseError_reader (c : Cause) (w : Word) (s : State) :
    (raiseError c w s).reader = s.reader := rfl

@[simp] theorem raiseError_err (c : Cause) (w : Word) (s : State) :
    (raiseError c w s).err = { halt := true, cause := c, errWord := w } := rfl

@[simp] theorem raiseError_frame (c : Cause) (w : Word) (s : State) :
    (raiseError c w s).frame = Frame.idle := rfl

@[simp] theorem raiseError_out (c : Cause) (w : Word) (s : State) :
    (raiseError c w s).out = s.out := rfl

@[simp] theorem raiseError_host (c : Cause) (w : Word) (s : State) :
    (raiseError c w s).host = s.host := rfl

@[simp] theorem raiseError_seen (c : Cause) (w : Word) (s : State) :
    (raiseError c w s).seen = s.seen := rfl

@[simp] theorem raiseError_drain (c : Cause) (w : Word) (s : State) :
    (raiseError c w s).drain = s.drain := rfl

@[simp] theorem raiseError_free (c : Cause) (w : Word) (s : State) :
    (raiseError c w s).free = s.free := rfl

/-! ### Hardware reset (R380) -/

@[simp] theorem hardwareReset_ctx_alg (s : State) :
    (hardwareReset s).ctx.alg = .none := rfl

@[simp] theorem hardwareReset_ctx_fill (s : State) :
    (hardwareReset s).ctx.fill = 0 := rfl

@[simp] theorem hardwareReset_ctx_len (s : State) :
    (hardwareReset s).ctx.len = 0 := rfl

@[simp] theorem hardwareReset_err (s : State) :
    (hardwareReset s).err = ErrState.clear := rfl

@[simp] theorem hardwareReset_frame (s : State) :
    (hardwareReset s).frame = Frame.idle := rfl

@[simp] theorem hardwareReset_out (s : State) :
    (hardwareReset s).out = [] := rfl

@[simp] theorem hardwareReset_host (s : State) :
    (hardwareReset s).host = s.host := rfl

@[simp] theorem hardwareReset_seen (s : State) :
    (hardwareReset s).seen = s.seen := rfl

@[simp] theorem hardwareReset_drain (s : State) :
    (hardwareReset s).drain = s.drain := rfl

@[simp] theorem hardwareReset_free (s : State) :
    (hardwareReset s).free = s.free + 1 := rfl

@[simp] theorem hardwareReset_reader_valid (s : State) :
    (hardwareReset s).reader.valid = false := rfl

@[simp] theorem hardwareReset_reader_alg (s : State) :
    (hardwareReset s).reader.alg = .none := rfl

@[simp] theorem hardwareReset_reader_rate (s : State) :
    (hardwareReset s).reader.rate = 0 := rfl

@[simp] theorem hardwareReset_reader_pos (s : State) :
    (hardwareReset s).reader.pos = 0 := rfl

/-! ### The frame state of an accepted UPDATE (R103) -/

@[simp] theorem openPayload_ctx (n : BitVec 16) (s : State) :
    (openPayload n s).ctx = s.ctx := rfl

@[simp] theorem openPayload_reader (n : BitVec 16) (s : State) :
    (openPayload n s).reader = s.reader := rfl

@[simp] theorem openPayload_err (n : BitVec 16) (s : State) :
    (openPayload n s).err = s.err := rfl

@[simp] theorem openPayload_frame (n : BitVec 16) (s : State) :
    (openPayload n s).frame = { pend := true, phdr := encode (.update n), prem := n, pdata := [] } := rfl

@[simp] theorem openPayload_out (n : BitVec 16) (s : State) :
    (openPayload n s).out = s.out := rfl

@[simp] theorem openPayload_host (n : BitVec 16) (s : State) :
    (openPayload n s).host = s.host := rfl

@[simp] theorem openPayload_seen (n : BitVec 16) (s : State) :
    (openPayload n s).seen = s.seen := rfl

@[simp] theorem openPayload_drain (n : BitVec 16) (s : State) :
    (openPayload n s).drain = s.drain := rfl

@[simp] theorem openPayload_free (n : BitVec 16) (s : State) :
    (openPayload n s).free = s.free := rfl

/-! ### UPDATE_BODY (R306); its context is `process`, up to the bytes above FILL -/

@[simp] theorem updateBody_ctx_alg (data : List Byte) (s : State) :
    (updateBody data s).ctx.alg = (process data { s.ctx with len := s.ctx.len + BitVec.ofNat 64 data.length }).alg := rfl

@[simp] theorem updateBody_ctx_fill (data : List Byte) (s : State) :
    (updateBody data s).ctx.fill = (process data { s.ctx with len := s.ctx.len + BitVec.ofNat 64 data.length }).fill := rfl

@[simp] theorem updateBody_ctx_len (data : List Byte) (s : State) :
    (updateBody data s).ctx.len = (process data { s.ctx with len := s.ctx.len + BitVec.ofNat 64 data.length }).len := rfl

@[simp] theorem updateBody_ctx_h (data : List Byte) (s : State) :
    (updateBody data s).ctx.h = (process data { s.ctx with len := s.ctx.len + BitVec.ofNat 64 data.length }).h := rfl

@[simp] theorem updateBody_ctx_s (data : List Byte) (s : State) :
    (updateBody data s).ctx.s = (process data { s.ctx with len := s.ctx.len + BitVec.ofNat 64 data.length }).s := rfl

@[simp] theorem updateBody_reader (data : List Byte) (s : State) :
    (updateBody data s).reader = s.reader := rfl

@[simp] theorem updateBody_err (data : List Byte) (s : State) :
    (updateBody data s).err = s.err := rfl

@[simp] theorem updateBody_frame (data : List Byte) (s : State) :
    (updateBody data s).frame = s.frame := rfl

@[simp] theorem updateBody_out (data : List Byte) (s : State) :
    (updateBody data s).out = s.out := rfl

@[simp] theorem updateBody_host (data : List Byte) (s : State) :
    (updateBody data s).host = s.host := rfl

@[simp] theorem updateBody_seen (data : List Byte) (s : State) :
    (updateBody data s).seen = s.seen := rfl

@[simp] theorem updateBody_drain (data : List Byte) (s : State) :
    (updateBody data s).drain = s.drain := rfl

@[simp] theorem updateBody_free (data : List Byte) (s : State) :
    (updateBody data s).free = s.free + 1 := rfl

/-! ### FINAL (R311), FINAL_XOF (R316) and READ (R266) -/

@[simp] theorem finalBody_ctx_alg (s : State) :
    (finalBody s).ctx.alg = (finalPad s.ctx).alg := rfl

@[simp] theorem finalBody_ctx_fill (s : State) :
    (finalBody s).ctx.fill = 0 := rfl

@[simp] theorem finalBody_ctx_len (s : State) :
    (finalBody s).ctx.len = 0 := rfl

@[simp] theorem finalBody_ctx_h (s : State) :
    (finalBody s).ctx.h = ripemdIV := rfl

@[simp] theorem finalBody_ctx_s (s : State) :
    (finalBody s).ctx.s = Vector.replicate 25 0 := rfl

@[simp] theorem finalBody_reader (s : State) :
    (finalBody s).reader = s.reader := rfl

@[simp] theorem finalBody_err (s : State) :
    (finalBody s).err = s.err := rfl

@[simp] theorem finalBody_frame (s : State) :
    (finalBody s).frame = s.frame := rfl

@[simp] theorem finalBody_out (s : State) :
    (finalBody s).out = s.out ++ digestOf (finalPad s.ctx) := rfl

@[simp] theorem finalBody_host (s : State) :
    (finalBody s).host = s.host := rfl

@[simp] theorem finalBody_seen (s : State) :
    (finalBody s).seen = s.seen := rfl

@[simp] theorem finalBody_drain (s : State) :
    (finalBody s).drain = s.drain := rfl

@[simp] theorem finalBody_free (s : State) :
    (finalBody s).free = s.free + 1 := rfl

@[simp] theorem finalXofBody_ctx_alg (s : State) :
    (finalXofBody s).ctx.alg = (finalPad s.ctx).alg := rfl

@[simp] theorem finalXofBody_ctx_fill (s : State) :
    (finalXofBody s).ctx.fill = 0 := rfl

@[simp] theorem finalXofBody_ctx_len (s : State) :
    (finalXofBody s).ctx.len = 0 := rfl

@[simp] theorem finalXofBody_ctx_h (s : State) :
    (finalXofBody s).ctx.h = ripemdIV := rfl

@[simp] theorem finalXofBody_ctx_s (s : State) :
    (finalXofBody s).ctx.s = Vector.replicate 25 0 := rfl

@[simp] theorem finalXofBody_reader (s : State) :
    (finalXofBody s).reader = newReader (finalPad s.ctx) := rfl

@[simp] theorem finalXofBody_err (s : State) :
    (finalXofBody s).err = s.err := rfl

@[simp] theorem finalXofBody_frame (s : State) :
    (finalXofBody s).frame = s.frame := rfl

@[simp] theorem finalXofBody_out (s : State) :
    (finalXofBody s).out = s.out := rfl

@[simp] theorem finalXofBody_host (s : State) :
    (finalXofBody s).host = s.host := rfl

@[simp] theorem finalXofBody_seen (s : State) :
    (finalXofBody s).seen = s.seen := rfl

@[simp] theorem finalXofBody_drain (s : State) :
    (finalXofBody s).drain = s.drain := rfl

@[simp] theorem finalXofBody_free (s : State) :
    (finalXofBody s).free = s.free + 1 := rfl

@[simp] theorem readBody_ctx (n : Nat) (s : State) :
    (readBody n s).ctx = s.ctx := rfl

@[simp] theorem readBody_reader (n : Nat) (s : State) :
    (readBody n s).reader = (squeeze n s.reader).2 := rfl

@[simp] theorem readBody_err (n : Nat) (s : State) :
    (readBody n s).err = s.err := rfl

@[simp] theorem readBody_frame (n : Nat) (s : State) :
    (readBody n s).frame = s.frame := rfl

@[simp] theorem readBody_out (n : Nat) (s : State) :
    (readBody n s).out = s.out ++ (squeeze n s.reader).1 := rfl

@[simp] theorem readBody_host (n : Nat) (s : State) :
    (readBody n s).host = s.host := rfl

@[simp] theorem readBody_seen (n : Nat) (s : State) :
    (readBody n s).seen = s.seen := rfl

@[simp] theorem readBody_drain (n : Nat) (s : State) :
    (readBody n s).drain = s.drain := rfl

@[simp] theorem readBody_free (n : Nat) (s : State) :
    (readBody n s).free = s.free := rfl

/-! ### BUF after bytes are forgotten (R33) -/

@[simp] theorem forgetStale_ctx_buf (s : State) :
    (forgetStale s).ctx.buf = staleAbove s.ctx.fill s.free s.ctx.buf := rfl

@[simp] theorem hardwareReset_ctx_buf (s : State) :
    (hardwareReset s).ctx.buf = staleAbove 0 s.free s.ctx.buf := rfl

theorem staleAbove_get (fill : BitVec 8) (n : Nat) (buf : Vector Byte 168) (i : Nat) (hi : i < 168) :
    (staleAbove fill n buf)[i] = if i < fill.toNat then buf[i] else Config.freeByte n i := by
  unfold staleAbove
  rw [Vector.getElem_ofFn]
  rfl

/-- The valid bytes, as the paddings and BLOCK read them, are untouched (R33). -/
theorem bufHead_staleAbove (c : Context) (fill : BitVec 8) (n k : Nat) (hk : k ≤ fill.toNat) :
    bufHead { c with buf := staleAbove fill n c.buf } k = bufHead c k := by
  apply List.ext_getElem
  · simp [bufHead]
  · intro i h1 h2
    have hi : i < 168 := by simp [bufHead] at h1; omega
    have hf : i < fill.toNat := by simp [bufHead] at h1; omega
    simpa [bufHead, hf] using staleAbove_get fill n c.buf i hi

/-- The valid bytes of the context are untouched when the others are forgotten (R33). -/
theorem forgetStale_bufHead (s : State) :
    bufHead (forgetStale s).ctx s.ctx.fill.toNat = bufHead s.ctx s.ctx.fill.toNat :=
  bufHead_staleAbove s.ctx s.ctx.fill s.free s.ctx.fill.toNat (Nat.le_refl _)

end Sys2Proof.Machine
end

