-- ==== Sys2Proof/Laws/Step.lean ====
section
/-! SUPPORT. Everything a command's meaning can answer, and everything a step can do, once: the lemmas that proofs
about commands and runs start from. -/

namespace Sys2Proof.Machine

/-! ### The meanings, case by case -/

/-- R301: INIT raises BAD_ALG or selects the algorithm of its code and re-initialises. -/
theorem execInit_cases (arg : BitVec 8) (s : State) :
    (algOfArg arg = none ∧ exec (.init arg) s = .next (raiseError .badAlg (encode (.init arg)) s)) ∨
    (∃ a, algOfArg arg = some a ∧ exec (.init arg) s = .next (reinit { s with ctx := { s.ctx with alg := a } })) := by
  cases h : algOfArg arg with
  | none => left; exact ⟨rfl, by simp only [exec, execInit, h]⟩
  | some a => right; exact ⟨a, rfl, by simp only [exec, execInit, h]⟩

/-- R305: UPDATE raises NOT_CONFIGURED or LEN_OVERFLOW, has no effect, or opens a payload. -/
theorem execUpdate_cases (n : BitVec 16) (s : State) :
    (s.ctx.alg = .none ∧ exec (.update n) s = .next (raiseError .notConfigured (encode (.update n)) s)) ∨
    (s.ctx.alg ≠ .none ∧ lenMax s.ctx.alg.kind < s.ctx.len.toNat + n.toNat ∧
      exec (.update n) s = .next (raiseError .lenOverflow (encode (.update n)) s)) ∨
    (s.ctx.alg ≠ .none ∧ s.ctx.len.toNat + n.toNat ≤ lenMax s.ctx.alg.kind ∧ n = 0 ∧
      exec (.update n) s = .next s) ∨
    (s.ctx.alg ≠ .none ∧ s.ctx.len.toNat + n.toNat ≤ lenMax s.ctx.alg.kind ∧ n ≠ 0 ∧
      exec (.update n) s = .next (openPayload n s)) := by
  have hl := lenOverflows_iff s.ctx n
  by_cases ha : s.ctx.alg = .none
  · exact .inl ⟨ha, by simp only [exec, execUpdate, ha, if_true]⟩
  by_cases ho : lenOverflows s.ctx n = true
  · exact .inr (.inl ⟨ha, hl.1 ho, by simp only [exec, execUpdate, ha, ho, if_false, if_true]⟩)
  have hle : s.ctx.len.toNat + n.toNat ≤ lenMax s.ctx.alg.kind := by
    have := mt hl.2 ho; omega
  by_cases hn : n = 0
  · exact .inr (.inr (.inl ⟨ha, hle, hn, by simp only [exec, execUpdate, ha, ho, if_false]; simp [hn]⟩))
  · exact .inr (.inr (.inr ⟨ha, hle, hn, by simp only [exec, execUpdate, ha, ho, hn, if_false]; simp⟩))

/-- R310: FINAL raises NOT_CONFIGURED or WRONG_FINALIZE, or runs its body. -/
theorem execFinal_cases (s : State) :
    (s.ctx.alg = .none ∧ exec .final s = .next (raiseError .notConfigured (encode .final) s)) ∨
    (s.ctx.alg.kind = .xof ∧ exec .final s = .next (raiseError .wrongFinalize (encode .final) s)) ∨
    (s.ctx.alg ≠ .none ∧ s.ctx.alg.kind ≠ .xof ∧ exec .final s = .next (finalBody s)) := by
  by_cases ha : s.ctx.alg = .none
  · exact .inl ⟨ha, by simp only [exec, execFinal, ha, if_true]⟩
  by_cases hk : s.ctx.alg.kind = .xof
  · exact .inr (.inl ⟨hk, by simp only [exec, execFinal, ha, hk, if_false, if_true]⟩)
  · exact .inr (.inr ⟨ha, hk, by simp only [exec, execFinal, ha, hk, if_false]⟩)

/-- R315: FINAL_XOF raises NOT_CONFIGURED or WRONG_FINALIZE, or runs its body. -/
theorem execFinalXof_cases (s : State) :
    (s.ctx.alg = .none ∧ exec .finalXof s = .next (raiseError .notConfigured (encode .finalXof) s)) ∨
    (s.ctx.alg ≠ .none ∧ s.ctx.alg.kind ≠ .xof ∧
      exec .finalXof s = .next (raiseError .wrongFinalize (encode .finalXof) s)) ∨
    (s.ctx.alg.kind = .xof ∧ exec .finalXof s = .next (finalXofBody s)) := by
  by_cases ha : s.ctx.alg = .none
  · exact .inl ⟨ha, by simp only [exec, execFinalXof, ha, if_true]⟩
  by_cases hk : s.ctx.alg.kind = .xof
  · exact .inr (.inr ⟨hk, by simp [exec, execFinalXof, ha, hk]⟩)
  · exact .inr (.inl ⟨ha, hk, by simp [exec, execFinalXof, ha, hk]⟩)

/-- R320: READ raises NO_READER or runs its body. -/
theorem execRead_cases (n : BitVec 16) (s : State) :
    (s.reader.valid = false ∧ exec (.read n) s = .next (raiseError .noReader (encode (.read n)) s)) ∨
    (s.reader.valid = true ∧ exec (.read n) s = .next (readBody n.toNat s)) := by
  cases hv : s.reader.valid with
  | false => exact .inl ⟨rfl, by simp [exec, execRead, hv]⟩
  | true => exact .inr ⟨rfl, by simp [exec, execRead, hv]⟩

/-- Every command answers a next state, whatever the state: an error is one too (R340). -/
theorem exec_next (i : Instr) (s : State) : ∃ t, exec i s = .next t := by
  cases i with
  | init arg => obtain ⟨_, h⟩ | ⟨_, _, h⟩ := execInit_cases arg s <;> exact ⟨_, h⟩
  | update n => obtain ⟨_, h⟩ | ⟨_, _, h⟩ | ⟨_, _, _, h⟩ | ⟨_, _, _, h⟩ := execUpdate_cases n s <;> exact ⟨_, h⟩
  | final => obtain ⟨_, h⟩ | ⟨_, h⟩ | ⟨_, _, h⟩ := execFinal_cases s <;> exact ⟨_, h⟩
  | finalXof => obtain ⟨_, h⟩ | ⟨_, _, h⟩ | ⟨_, h⟩ := execFinalXof_cases s <;> exact ⟨_, h⟩
  | read n => obtain ⟨_, h⟩ | ⟨_, h⟩ := execRead_cases n s <;> exact ⟨_, h⟩

/-! ### The step, by the host's next transaction (R390) -/

theorem step_idle (s : State) (h : s.host = []) : step s = .next s := by simp only [step, hostStep, h]

theorem step_write (s : State) (w : Word) (rest : List HostOp) (h : s.host = .write w :: rest) :
    step s = if mustWait Config.outDepth w s then .next (drainStep s) else takeWord w { s with host := rest } := by
  simp only [step, hostStep, h]

theorem step_readOut (s : State) (rest : List HostOp) (h : s.host = .readOut :: rest) :
    step s = responseRead { s with host := rest } := by simp only [step, hostStep, h]

theorem step_readStatus (s : State) (off : Nat) (rest : List HostOp) (h : s.host = .readStatus off :: rest) :
    step s = statusRead off { s with host := rest } := by simp only [step, hostStep, h]

theorem step_writeStatus (s : State) (off : Nat) (w : Word) (rest : List HostOp)
    (h : s.host = .writeStatus off w :: rest) :
    step s = statusWrite off { s with host := rest } := by simp only [step, hostStep, h]

theorem step_reset (s : State) (w : Option Word) (rest : List HostOp) (h : s.host = .reset w :: rest) :
    step s = .next (hardwareReset { s with host := rest }) := by simp only [step, hostStep, h]

/-- R73: a response-port read takes the head of OUT, or has no step. -/
theorem responseRead_cases (s : State) :
    (s.out = [] ∧ responseRead s = .fault .responseQueueEmpty) ∨
    (∃ b bs, s.out = b :: bs ∧ responseRead s = .next { s with out := bs, seen := s.seen ++ [.outByte b] }) := by
  cases h : s.out with
  | nil => exact .inl ⟨rfl, by simp only [responseRead, h]⟩
  | cons b bs => exact .inr ⟨b, bs, rfl, by simp only [responseRead, h]⟩

/-- R50, R56: the status register file answers at the multiples of 4 in the window, and there only. -/
theorem statusAt_isSome_iff (off : Nat) (s : State) : (∃ v, statusAt off s = some v) ↔ off < 32 ∧ off % 4 = 0 := by
  unfold statusAt isStatusOffset inStatusWindow
  by_cases h : off < 32 ∧ off % 4 = 0
  · simp only [h.1, h.2, decide_true, Bool.and_self, if_true, and_self, iff_true]
    split_ifs <;> exact ⟨_, rfl⟩
  · have : (decide (off < 32) && decide (off % 4 = 0)) = false := by simpa using h
    simp [this, h]

/-- R50, R56: a status read returns a register and changes nothing else, or is the platform's. -/
theorem statusRead_cases (off : Nat) (s : State) :
    (off < 32 ∧ off % 4 = 0 ∧ ∃ v, statusAt off s = some v ∧
      statusRead off s = .next { s with seen := s.seen ++ [.status off v] }) ∨
    (¬ (off < 32 ∧ off % 4 = 0) ∧ statusRead off s = .refused .statusOutsideWindow) := by
  have hi := statusAt_isSome_iff off s
  cases h : statusAt off s with
  | none => exact .inr ⟨fun hc => by simpa [h] using hi.2 hc, by simp only [statusRead, h]⟩
  | some v =>
    obtain ⟨h1, h2⟩ := hi.1 ⟨v, h⟩
    exact .inl ⟨h1, h2, v, rfl, by simp only [statusRead, h]⟩

/-- R50: a status write inside the window is ignored; outside it is the platform's. -/
theorem statusWrite_cases (off : Nat) (s : State) :
    (off < 32 ∧ statusWrite off s = .next s) ∨ (32 ≤ off ∧ statusWrite off s = .refused .statusOutsideWindow) := by
  by_cases h : off < 32
  · exact .inl ⟨h, by simp [statusWrite, inStatusWindow, h]⟩
  · exact .inr ⟨by omega, by simp [statusWrite, inStatusWindow, h]⟩

/-- R102: a word taken is discarded, taken as payload, or looked at as a header. -/
theorem takeWord_cases (w : Word) (s : State) :
    (s.err.halt = true ∧ takeWord w s = .next s) ∨
    (s.err.halt = false ∧ s.frame.pend = true ∧ takeWord w s = .next (payloadWord w s)) ∨
    (s.err.halt = false ∧ s.frame.pend = false ∧ takeWord w s = headerWord w s) := by
  cases hh : s.err.halt <;> cases hp : s.frame.pend <;> simp [takeWord, hh, hp]

/-- R103: a header word runs the command it decodes to, or raises the error of a word that is none. -/
theorem headerWord_cases (w : Word) (s : State) :
    (∃ i, decode w = .command i ∧ headerWord w s = exec i s) ∨
    (∃ r, decode w = .reject r ∧ headerWord w s = .next (raiseError (rejectCause r) w s)) := by
  unfold headerWord
  cases h : decode w with
  | command i => exact .inl ⟨i, rfl, rfl⟩
  | reject r => exact .inr ⟨r, rfl, rfl⟩

/-- R102: a word that the engine takes gives a next state. -/
theorem takeWord_next (w : Word) (s : State) : ∃ t, takeWord w s = .next t := by
  obtain ⟨_, h⟩ | ⟨_, _, h⟩ | ⟨_, _, h⟩ := takeWord_cases w s
  · exact ⟨_, h⟩
  · exact ⟨_, h⟩
  · obtain ⟨i, _, hw⟩ | ⟨_, _, hw⟩ := headerWord_cases w s
    · rw [h, hw]; exact exec_next i s
    · exact ⟨_, h.trans hw⟩

/-- R104: a payload word that does not complete the command changes only the frame state; one that does runs
UPDATE_BODY on all the payload and leaves the decoder between commands. -/
theorem payloadWord_cases (w : Word) (s : State) :
    (s.frame.prem - BitVec.ofNat 16 (min 4 s.frame.prem.toNat) = 0 ∧
      payloadWord w s =
        { updateBody (s.frame.pdata ++ payloadBytes s.frame.prem w)
            { s with frame :=
              { s.frame with
                pend := false
                prem := s.frame.prem - BitVec.ofNat 16 (min 4 s.frame.prem.toNat)
                pdata := s.frame.pdata ++ payloadBytes s.frame.prem w } } with
          frame := Frame.idle }) ∨
    (s.frame.prem - BitVec.ofNat 16 (min 4 s.frame.prem.toNat) ≠ 0 ∧
      payloadWord w s =
        { s with frame :=
          { s.frame with
            prem := s.frame.prem - BitVec.ofNat 16 (min 4 s.frame.prem.toNat)
            pdata := s.frame.pdata ++ payloadBytes s.frame.prem w } }) := by
  by_cases h : s.frame.prem - BitVec.ofNat 16 (min 4 s.frame.prem.toNat) = 0
  · exact .inl ⟨h, by simp only [payloadWord, h, if_true]⟩
  · exact .inr ⟨h, by simp only [payloadWord, h, if_false]⟩

@[simp] theorem payloadBytes_length (p : BitVec 16) (w : Word) : (payloadBytes p w).length = min 4 p.toNat := by
  simp [payloadBytes]

end Sys2Proof.Machine
end

