-- ==== Sys2Proof/Tests/Slice0.lean ====
section
/-! SUPPORT. The model's own tests. Expected values are the spec's: the words of spec/30_encoding.md R105 and R113, the
examples of the rules, and the vectors of spec/95_test_vectors.md. The `witness_` theorems show, for each obligation
with hypotheses, states and operands that meet them, at the ends of their ranges. -/

namespace Sys2Proof.Tests

open Sys2Proof Sys2Proof.Machine

/-! ### Well-formedness smoke: the one check, refused below and above its range -/

theorem test_wellFormed_refuses_init_0 : Instr.wellFormed (.init 0) = false := by decide
theorem test_wellFormed_refuses_init_8 : Instr.wellFormed (.init 8) = false := by decide
theorem test_wellFormed_accepts_ends :
    Instr.wellFormed (.init 1) = true ∧ Instr.wellFormed (.init 7) = true := by decide

/-! ### Decoding: words written out bit by bit from R101 and R105 -/

theorem test_decode_init : decode 0b00000001000001110000000000000000 = .command (.init 7) := by decide
theorem test_decode_update : decode 0b00000010000000001000000000000001 = .command (.update 0x8001) := by decide
theorem test_decode_final : decode 0b00000011000000000000000000000000 = .command .final := by decide
theorem test_decode_finalXof : decode 0b00000100000000000000000000000000 = .command .finalXof := by decide
theorem test_decode_read : decode 0b00000101000000001000000000000001 = .command (.read 0x8001) := by decide

/-- R109, R343: the all-zero word; opcode 6; a reserved ARG; a reserved N. -/
theorem test_decode_rejects :
    decode 0x00000000 = .reject .illegalOpcode ∧ decode 0x06000000 = .reject .illegalOpcode ∧
    decode 0x02010000 = .reject .reservedNonzero ∧ decode 0x01FF0001 = .reject .reservedNonzero ∧
    decode 0x03000001 = .reject .reservedNonzero := by decide

theorem test_decodeTableWord :
    decodeTableWord 32 0x01000000 = some (.init 0) ∧ decodeTableWord 32 0x0500FFFF = some (.read 65535) ∧
    decodeTableWord 32 0 = none := by decide

/-! ### Small states -/

/-- An engine between commands under algorithm `a` with `fill` bytes "a" in BUF. -/
def engine (a : Alg) (fill : BitVec 8) : State :=
  { State.reset with
    ctx := { State.reset.ctx with alg := a, fill := fill, h := ripemdIV, buf := Vector.replicate 168 0x61 } }

/-- A SHAKE128 reader whose cursor is at `pos`. -/
def withReader (pos : BitVec 8) (s : State) : State :=
  { s with reader := { valid := true, alg := .shake128, rs := Vector.replicate 25 0, rate := 168, pos := pos } }

/-- The engine with `l` as the host's transactions. -/
def hosting (l : List HostOp) (s : State) : State := { s with host := l }

/-- A pending payload of which `prem` bytes are to come, under RIPEMD-160 with nothing fed. -/
def pending (prem : BitVec 16) : State :=
  { engine .ripemd160 0 with
    frame := { pend := true, phdr := encode (.update prem), prem := prem, pdata := [] } }

/-- What a test looks at in an outcome. -/
def onNext {α : Type} (f : State → α) (o : Host.Outcome State Fault Refusal) : Option α :=
  match o with
  | .next t => some (f t)
  | .fault _ => none
  | .refused _ => none

/-! ### Commands -/

/-- R301: INIT SHA3_256 from reset gives ALG = 3, FILL = 0, LEN = 0. -/
theorem test_init :
    onNext (fun t => (t.ctx.alg, t.ctx.fill, t.ctx.len, statusReg t)) (exec (.init 3) State.reset) =
      some (.sha3_256, 0, 0, 0x00000003) := by decide

/-- spec/95 2.1: INIT with code 8 raises BAD_ALG. -/
theorem test_init_badAlg :
    onNext (fun t => (statusReg t, t.err.errWord)) (exec (.init 8) State.reset) = some (0x00000310, 0x01080000) := by
  decide

/-- spec/95 2.1: UPDATE 5 under SHA3_256 leaves a payload of 5 bytes pending. -/
theorem test_update :
    onNext (fun t => (statusReg t, frameReg t)) (exec (.update 5) (engine .sha3_256 0)) =
      some (0x00000023, 0x00000005) := by decide

/-- spec/95 2.1: LEN = 2^61 − 1 under RIPEMD160, and UPDATE 1 raises LEN_OVERFLOW. -/
theorem test_update_lenOverflow :
    onNext (fun t => (statusReg t, t.err.errWord))
      (exec (.update 1)
        { engine .ripemd160 0 with ctx := { (engine .ripemd160 0).ctx with len := 0x1FFFFFFFFFFFFFFF } }) =
      some (0x00000711, 0x02000001) := by decide

/-- spec/95 V1: FINAL right after INIT RIPEMD160 emits the digest of the empty message. -/
theorem test_final_ripemd :
    onNext (fun t => t.out) (exec .final (engine .ripemd160 0)) =
      some [0x9c, 0x11, 0x85, 0xa5, 0xc5, 0xe9, 0xfc, 0x54, 0x61, 0x28, 0x08, 0x97, 0x7e, 0xe8, 0xf5, 0x48, 0xb2,
        0x25, 0x8d, 0x31] := by decide +kernel

/-- spec/95 2.1: FINAL under SHAKE128 raises WRONG_FINALIZE. -/
theorem test_final_wrong :
    onNext (fun t => (statusReg t, t.err.errWord)) (exec .final (engine .shake128 0)) =
      some (0x00000516, 0x03000000) := by decide

/-- R315: FINAL_XOF under SHAKE128 gives RVALID = 1, RRATE = 168, RPOS = 0. -/
theorem test_finalXof :
    onNext (fun t => (statusReg t, rdrStatusReg t)) (exec .finalXof (engine .shake128 0)) =
      some (0x0000000E, 0x0006A800) := by decide +kernel

/-- spec/95 2.1: FINAL_XOF under SHA3_256 raises WRONG_FINALIZE. -/
theorem test_finalXof_wrong :
    onNext (fun t => (statusReg t, t.err.errWord)) (exec .finalXof (engine .sha3_256 0)) =
      some (0x00000513, 0x04000000) := by decide

/-- R266, C6: a READ that ends at the end of the window leaves RPOS = RRATE and permutes nothing. -/
theorem test_read_to_window_end :
    onNext (fun t => (t.reader.pos, t.reader.rs, t.out)) (exec (.read 2) (withReader 166 (engine .none 0))) =
      some (168, Vector.replicate 25 0, [0, 0]) := by decide +kernel

/-- spec/95 2.1: READ with no reader raises NO_READER. -/
theorem test_read_noReader :
    onNext (fun t => (statusReg t, t.err.errWord)) (exec (.read 1) State.reset) = some (0x00000610, 0x05000001) := by
  decide

/-! ### Payload words, the step and the ports -/

/-- R104: the last word of a 5-byte payload carries one byte; the others are ignored. -/
theorem test_payload_partial : payloadBytes 1 0xA5A5A520 = [0x20] := by decide

/-- spec/95 2.6: payload word 17 of an UPDATE 70 leaves 2 bytes to come. -/
theorem test_payload_counts_down : onNext frameReg (.next (payloadWord 0x43424140 (pending 6))) = some 2 := by decide

/-- spec/95 P5: the FINAL word is taken as payload while PEND is 1; FILL and LEN are then 4. -/
theorem test_final_word_as_payload :
    onNext (fun t => (statusReg t, t.ctx.len, bufHead t.ctx 4))
        (step (hosting [.write 0x03000000] (pending 4))) =
      some (0x00040001, 4, [0x00, 0x00, 0x00, 0x03]) := by
  decide +kernel

/-- R342: a halted engine discards a word. -/
theorem test_halted_discards :
    onNext (fun t => (statusReg t, t.host))
        (step (hosting [.write 0x01010000] (raiseError .illegalOpcode 0x07000000 State.reset))) =
      some (0x00000110, []) := by decide

/-- The word placed is the word run: UPDATE 0 from reset raises NOT_CONFIGURED (spec/95 2.1). -/
theorem test_withFetchWord :
    onNext statusReg (step (State.withFetchWord State.reset 32 0x02000000)) = some 0x00000410 := by decide +kernel

/-- R73: the byte at the head of OUT. -/
theorem test_responseRead :
    onNext (fun t => (t.out, t.seen)) (step (hosting [.readOut] { State.reset with out := [1, 2] })) =
      some ([2], [.outByte 1]) := by decide

/-- spec/95 V4: RDR_STATUS of a SHAKE128 reader at cursor 32. -/
theorem test_statusRead :
    onNext (fun t => t.seen) (step (hosting [.readStatus 4] (withReader 32 State.reset))) =
      some [.status 4 0x0006A820] := by decide

/-- R50: a write to the window is ignored, at an unaligned offset too; R56 leaves only reads there to the platform. -/
theorem test_statusWrite_unaligned :
    onNext (fun t => (statusReg t, t.host, t.seen)) (step (hosting [.writeStatus 5 0xFFFFFFFF] (engine .sha3_256 7))) =
      some (0x00070003, [], []) ∧
    onNext statusReg (step (hosting [.readStatus 5] State.reset)) = none := by decide

/-! ### The engines -/

/-- spec/95 2.3: RMD_COMPRESS of five zero words and 64 zero bytes. -/
theorem test_rmdCompress_zero :
    rmdCompress (Vector.replicate 5 0) (zeros 64) =
      #v[0x6BB9FE69, 0x3D09C7C0, 0x48ED6A0E, 0x7D117C5D, 0xADC8E12D] := by decide +kernel

/-- spec/95 2.4: θ of the state with only bit 0 of S[0] set, and ρ∘π of the one with only bit 0 of S[1] set. -/
theorem test_theta_rhoPi :
    theta ((Vector.replicate 25 0).set 0 1) =
      #v[1, 1, 0, 0, 2, 0, 1, 0, 0, 2, 0, 1, 0, 0, 2, 0, 1, 0, 0, 2, 0, 1, 0, 0, 2] ∧
    rhoPi ((Vector.replicate 25 0).set 1 1) = (Vector.replicate 25 0).set 10 2 := by decide +kernel

/-- spec/95 2.4: χ of the state with only bit 0 of S[0] set; ROUND(0, 5) has S[0] = RC[5]. -/
theorem test_chi_round :
    chi ((Vector.replicate 25 0).set 0 1) = ((Vector.replicate 25 0).set 0 1).set 3 1 ∧
    keccakRound (Vector.replicate 25 0) 5 = (Vector.replicate 25 0).set 0 0x80000001 := by decide +kernel

/-- spec/95 V9: KECCAK_F(0), lanes 0 and 24. -/
theorem test_keccakF_zero :
    (let A := keccakF (Vector.replicate 25 0)
     (A[0], A[24])) = (0xF1258F7940E1DDE7, 0xEAF1FF7B5CECA249) := by decide +kernel

/-- R145, R146: F = 55 gives one block, F = 56 two. -/
theorem test_lengthPad_boundary :
    (lengthPadBlocks 64 (List.replicate 55 0x61) 440).length = 1 ∧
    (lengthPadBlocks 64 (List.replicate 56 0x61) 448).length = 2 := by decide

/-- R149: PAD and 0x80 merge in the last byte. -/
theorem test_padWith_merged : (padWithBlock 136 0x06 (List.replicate 135 0x61)).getD 135 0 = 0x86 := by decide +kernel

/-! ### Witnesses: hypotheses that can be met, clause by clause -/

theorem witness_DecodeInvertsEncode : ∃ w i, decode w = .command i ∧ w = encode i :=
  ⟨0x0500FFFF, .read 65535, by decide, by decide⟩

theorem witness_IllegalOpcodesRaise :
    (0x00FFFFFF : Word).toNat / 2 ^ 24 = 0 ∧ 6 ≤ (0x06000000 : Word).toNat / 2 ^ 24 ∧
    6 ≤ (0xFF000000 : Word).toNat / 2 ^ 24 := by decide

theorem witness_ReservedFieldsRaise :
    (∃ opc : BitVec 8, ∃ n : BitVec 16, opc = 1 ∧ n ≠ 0) ∧
    (∃ opc arg : BitVec 8, (opc = 2 ∨ opc = 5) ∧ arg ≠ 0) ∧
    (∃ opc arg : BitVec 8, ∃ n : BitVec 16, (opc = 3 ∨ opc = 4) ∧ (arg ≠ 0 ∨ n ≠ 0)) :=
  ⟨⟨1, 1, by decide⟩, ⟨5, 255, by decide⟩, ⟨4, 0, 65535, by decide⟩⟩

theorem witness_StepRunsDecodedCommand :
    ∃ s w rest i, s.host = .write w :: rest ∧ Ready s ∧ decode w = .command i ∧
      roomFor Config.outDepth (outBytes i s) s = true :=
  ⟨hosting [.write 0x03000000] (engine .ripemd160 0), 0x03000000, [], .final, rfl, ⟨rfl, rfl⟩, by decide,
    roomFor_of_le _ _ _ (by decide)⟩

theorem witness_StepTakesPayloadWord :
    ∃ (s : State) (w : Word) (rest : List HostOp), s.host = .write w :: rest ∧ s.err.halt = false ∧
      s.frame.pend = true :=
  ⟨hosting [.write 0x03000000] (pending 4), 0x03000000, [], rfl, rfl, rfl⟩

theorem witness_HaltedEngineDiscardsWords :
    ∃ (s : State) (w : Word) (rest : List HostOp), s.host = .write w :: rest ∧ s.err.halt = true :=
  ⟨hosting [.write 0] (raiseError .badAlg 0x01000000 State.reset), 0, [], rfl, rfl⟩

/-- A FINAL of 20 bytes against 19 free bytes, with k other reads outstanding (0 or more); and against 20. -/
theorem witness_FullQueueStallsCommandPort (k : Nat) :
    (∃ s w rest b bs, s.host = .write w :: rest ∧ Ready s ∧ 65535 - s.out.length < outNeeded w s ∧ s.drain = k ∧
      s.out = b :: bs) ∧
    (∃ s w rest, s.host = .write w :: rest ∧ Ready s ∧ outNeeded w s = 65535 - s.out.length) := by
  have hd : decode 0x03000000 = .command .final := by decide
  refine ⟨⟨{ hosting [.write 0x03000000] (engine .ripemd160 0) with out := 0 :: List.replicate 65515 0, drain := k },
    0x03000000, [], 0, List.replicate 65515 0, rfl, ⟨rfl, rfl⟩, ?_, rfl, rfl⟩,
    ⟨{ hosting [.write 0x03000000] (engine .ripemd160 0) with out := List.replicate 65515 0 },
    0x03000000, [], rfl, ⟨rfl, rfl⟩, ?_⟩⟩
  · simp only [outNeeded, hd, outBytes, List.length_cons, List.length_replicate]; decide
  · simp only [outNeeded, hd, outBytes, List.length_replicate]; decide

theorem witness_IdleEngineHoldsItsState : State.reset.host = [] := rfl

theorem witness_ResponseReadRemovesHead :
    (∃ (s : State) (rest : List HostOp) (b : Byte) (bs : List Byte), s.host = .readOut :: rest ∧ s.out = b :: bs) ∧
    (∃ (s : State) (rest : List HostOp), s.host = .readOut :: rest ∧ s.out = []) :=
  ⟨⟨hosting [.readOut] { State.reset with out := [7] }, [], 7, [], rfl, rfl⟩,
    ⟨hosting [.readOut] State.reset, [], rfl, rfl⟩⟩

theorem witness_StatusReadReturnsRegister :
    ∀ off ∈ [0x00, 0x04, 0x08, 0x0C, 0x10, 0x14, 0x18, 0x1C, 0x20, 0x1E],
      ∃ (s : State) (rest : List HostOp), s.host = .readStatus off :: rest :=
  fun off _ => ⟨hosting [.readStatus off] State.reset, [], rfl⟩

theorem witness_StatusWriteIsIgnored :
    (∃ (s : State) (v : Word) (rest : List HostOp), s.host = .writeStatus 31 v :: rest ∧ (31 : Nat) < 32) ∧
    (∃ (s : State) (v : Word) (rest : List HostOp), s.host = .writeStatus 32 v :: rest ∧ (32 : Nat) ≤ 32) :=
  ⟨⟨hosting [.writeStatus 31 5] State.reset, 5, [], rfl, by decide⟩,
    ⟨hosting [.writeStatus 32 5] State.reset, 5, [], rfl, by decide⟩⟩

theorem witness_HeaderReportsFirstFailedCheck :
    headerError 0x03000001 State.reset = some .reservedNonzero ∧ headerError 0x03000000 State.reset = some .notConfigured ∧
    headerError 0x01010000 State.reset = none := by decide

theorem witness_OnlyResetLeavesHalt :
    ∃ s t, s.err.halt = true ∧ step s = .next t ∧ ∀ w rest, s.host ≠ .reset w :: rest :=
  ⟨hosting [.readOut] { raiseError .badAlg 0x01000000 State.reset with out := [7] }, _, rfl, rfl,
    fun _ _ h => by cases h⟩

theorem witness_HardwareResetValues :
    ∃ (s : State) (w : Option Word) (rest : List HostOp), s.host = .reset w :: rest :=
  ⟨hosting [.reset (some 0x01010000)] (pending 4), some 0x01010000, [], rfl⟩

theorem witness_InitSelectsAlgorithm :
    (1 ≤ (1 : BitVec 8).toNat ∧ (1 : BitVec 8).toNat ≤ 7) ∧ (1 ≤ (7 : BitVec 8).toNat ∧ (7 : BitVec 8).toNat ≤ 7) := by
  decide

theorem witness_InitArgSelectsOrRaises :
    (0 : BitVec 8).toNat = 0 ∧ 8 ≤ (8 : BitVec 8).toNat ∧ 8 ≤ (255 : BitVec 8).toNat ∧
    (∃ p : BitVec 8 × Alg, p ∈ [(1, Alg.ripemd160), (7, Alg.shake256)]) :=
  ⟨by decide, by decide, by decide, (1, .ripemd160), by decide⟩

theorem witness_ErrorEntryIsPrecise : headerError 0x04000000 (engine .sha3_256 0) = some .wrongFinalize := by decide

theorem witness_ReadPermutationCount :
    (∃ r : Reader, r.pos.toNat = r.rate.toNat ∧ 0 < r.rate.toNat) ∧
    ∃ r : Reader, r.pos.toNat ≤ r.rate.toNat ∧ 0 < r.rate.toNat ∧ r.pos = 0 :=
  ⟨⟨(withReader 168 State.reset).reader, by decide, by decide⟩,
    ⟨(withReader 0 State.reset).reader, by decide, by decide, rfl⟩⟩

theorem witness_UpdateOpensPayload :
    ∃ (n : BitVec 16) (s : State), s.ctx.alg ≠ .none ∧ s.ctx.len.toNat + n.toNat = lenMax s.ctx.alg.kind ∧ n ≠ 0 :=
  ⟨65535, { engine .sha3_512 0 with ctx := { (engine .sha3_512 0).ctx with len := 0xFFFFFFFFFFFF0000 } },
    by decide, by decide, by decide⟩

theorem witness_UpdateHeaderErrors :
    (∃ s : State, s.ctx.alg = .none) ∧
    (∃ (n : BitVec 16) (s : State), s.ctx.alg = .ripemd160 ∧ 2 ^ 61 - 1 < s.ctx.len.toNat + n.toNat) ∧
    (∃ (n : BitVec 16) (s : State), s.ctx.alg ≠ .none ∧ s.ctx.alg ≠ .ripemd160 ∧
      2 ^ 64 - 1 < s.ctx.len.toNat + n.toNat) :=
  ⟨⟨State.reset, rfl⟩,
    ⟨1, { engine .ripemd160 0 with ctx := { (engine .ripemd160 0).ctx with len := 0x1FFFFFFFFFFFFFFF } },
      by decide, by decide⟩,
    ⟨1, { engine .shake256 0 with ctx := { (engine .shake256 0).ctx with len := 0xFFFFFFFFFFFFFFFF } },
      by decide, by decide, by decide⟩⟩

theorem witness_EmptyUpdateAndReadHaveNoEffect :
    (∃ s : State, s.ctx.alg ≠ .none ∧ s.ctx.len.toNat ≤ lenMax s.ctx.alg.kind) ∧
    (∃ s : State, s.reader.valid = true) ∧ (∃ s : State, s.ctx.alg = .none) ∧ ∃ s : State, s.reader.valid = false :=
  ⟨⟨engine .sha3_224 0, by decide, by decide⟩, ⟨withReader 168 State.reset, rfl⟩, ⟨State.reset, rfl⟩,
    ⟨State.reset, rfl⟩⟩

theorem witness_PayloadWordFeedsDecoder :
    (∃ s : State, s.frame.pend = true ∧ s.frame.prem.toNat = 1) ∧
    (∃ s : State, s.frame.pend = true ∧ s.frame.prem.toNat = 4) ∧
    ∃ s : State, s.frame.pend = true ∧ s.frame.prem.toNat = 5 :=
  ⟨⟨pending 1, rfl, rfl⟩, ⟨pending 4, rfl, rfl⟩, ⟨pending 5, rfl, rfl⟩⟩

theorem witness_ProcessSplitsIntoBlocks :
    ∃ c : Context, c.alg ≠ .none ∧ c.fill.toNat < c.alg.cap ∧ c.fill.toNat + 1 = c.alg.cap :=
  ⟨(engine .shake128 167).ctx, by decide, by decide, by decide⟩

theorem witness_UpdateBodyCountsAndProcesses :
    ∃ (data : List Byte) (s : State), s.ctx.alg ≠ .none ∧ s.ctx.fill.toNat < s.ctx.alg.cap ∧
      s.ctx.len.toNat + data.length = lenMax s.ctx.alg.kind :=
  ⟨[1], { engine .ripemd160 63 with ctx := { (engine .ripemd160 63).ctx with len := 0x1FFFFFFFFFFFFFFE } },
    by decide, by decide, by decide⟩

theorem witness_StreamingInvariance :
    ∃ (ms ns : List (List Byte)) (s : State), s.ctx.alg ≠ .none ∧ ms.flatten = ns.flatten ∧ ms ≠ ns :=
  ⟨[[1], [], [2, 3]], [[1, 2, 3]], engine .ripemd160 63, by decide, by decide, by decide⟩

theorem witness_LengthPadBlocksByOffset :
    ∀ F ∈ [0, 55, 56, 63], ∃ pre : List Byte, pre.length < 64 ∧ pre.length = F := by
  intro F h
  refine ⟨List.replicate F 0x61, ?_, by simp⟩
  simp at h ⊢
  omega

theorem witness_PadWithOneBlock :
    (∃ c : Context, (c.alg.kind = .fixed ∨ c.alg.kind = .xof) ∧ c.fill.toNat < c.alg.cap - 1) ∧
    (∃ c : Context, (c.alg.kind = .fixed ∨ c.alg.kind = .xof) ∧ c.fill.toNat = c.alg.cap - 1 ∧
      c.fill.toNat < c.alg.cap) :=
  ⟨⟨(engine .sha3_256 0).ctx, by decide, by decide⟩, ⟨(engine .shake256 135).ctx, by decide, by decide, by decide⟩⟩

theorem witness_PaddedLengthIsWholeBlocks :
    (∃ s : State, s.ctx.alg ≠ .none ∧ s.ctx.fill = 0 ∧ s.ctx.len = 0 ∧ s.ctx.alg.kind = .md) ∧
    (∃ s : State, s.ctx.alg ≠ .none ∧ s.ctx.fill = 0 ∧ s.ctx.len = 0 ∧ s.ctx.alg.kind = .xof) ∧
    ([[0x61], [], [0x62]] : List (List Byte)).flatten.length ≤ lenMax .md :=
  ⟨⟨engine .ripemd160 0, by decide, rfl, rfl, rfl⟩, ⟨engine .shake128 0, by decide, rfl, rfl, rfl⟩, by decide⟩

theorem witness_PaddingStateMachineRefinesFinalize :
    (∃ s : State, s.ctx.alg.kind = .md ∧ s.ctx.fill.toNat < s.ctx.alg.cap ∧ 56 ≤ s.ctx.fill.toNat) ∧
    (∃ s : State, s.ctx.alg.kind = .xof ∧ s.ctx.fill.toNat < s.ctx.alg.cap) :=
  ⟨⟨engine .ripemd160 56, by decide, by decide, by decide⟩, ⟨engine .shake256 0, by decide, by decide⟩⟩

theorem witness_FinalEmitsRipemdDigest :
    ∃ s : State, s.ctx.alg = .ripemd160 ∧ s.ctx.fill.toNat = 63 ∧ s.ctx.len.toNat = 2 ^ 61 - 1 :=
  ⟨{ engine .ripemd160 63 with ctx := { (engine .ripemd160 63).ctx with len := 0x1FFFFFFFFFFFFFFF } },
    by decide, by decide, by decide⟩

theorem witness_FinalEmitsSha3Digest :
    ∃ s : State, s.ctx.alg.kind = .fixed ∧ s.ctx.fill.toNat < s.ctx.alg.cap ∧ s.ctx.fill.toNat = 71 :=
  ⟨engine .sha3_512 71, by decide, by decide, by decide⟩

theorem witness_FinalXofCreatesReader :
    ∃ s : State, s.ctx.alg.kind = .xof ∧ s.ctx.fill.toNat < s.ctx.alg.cap ∧ s.ctx.fill.toNat = 167 :=
  ⟨engine .shake128 167, by decide, by decide, by decide⟩

theorem witness_FinalizeAndReadErrors :
    (∃ s : State, s.ctx.alg = .none) ∧ (∃ s : State, s.ctx.alg.kind = .xof) ∧ (∃ s : State, s.ctx.alg.kind = .md) ∧
    (∃ s : State, s.ctx.alg.kind = .fixed) ∧ ∃ s : State, s.reader.valid = false :=
  ⟨⟨State.reset, rfl⟩, ⟨engine .shake128 0, rfl⟩, ⟨engine .ripemd160 0, rfl⟩, ⟨engine .sha3_224 0, rfl⟩,
    ⟨State.reset, rfl⟩⟩

theorem witness_FinalLeavesContextOfInit :
    ∃ s t u : State, s.ctx.alg ≠ .none ∧ s.ctx.alg.kind ≠ .xof ∧ exec .final s = .next t ∧
      exec (.init (s.ctx.alg.code.zeroExtend 8)) s = .next u :=
  ⟨engine .sha3_384 5, _, _, by decide, by decide, rfl, rfl⟩

theorem witness_ReadEmitsNextBytes :
    (∃ s : State, s.reader.valid = true) ∧ (∃ r : Reader, r.pos = r.rate) ∧ ∃ r : Reader, r.pos ≠ r.rate :=
  ⟨⟨withReader 0 State.reset, rfl⟩, ⟨(withReader 168 State.reset).reader, rfl⟩,
    ⟨(withReader 167 State.reset).reader, by decide⟩⟩

theorem witness_ReaderStream : ∃ r : Reader, r.pos = 0 ∧ 0 < r.rate.toNat :=
  ⟨(withReader 0 State.reset).reader, rfl, by decide⟩

theorem witness_ContextAndReaderIndependent :
    (∃ (n : BitVec 16) (s t : State), exec (.read n) s = .next t) ∧
    (∃ (i : Instr) (s t : State), i ≠ .finalXof ∧ (∀ n, i ≠ .read n) ∧ exec i s = .next t) :=
  ⟨⟨0, withReader 0 State.reset, _, rfl⟩,
    ⟨.init 1, withReader 0 State.reset, _, by decide, fun _ => nofun, rfl⟩⟩

theorem witness_CommandsEmitTheirCount : ∃ (i : Instr) (s t : State), exec i s = .next t ∧ outBytes i s = 64 :=
  ⟨.final, engine .sha3_512 0, _, rfl, by decide⟩

theorem witness_StateByteView : (0 : Nat) < 200 ∧ (199 : Nat) < 200 := by decide

theorem witness_RhoPiMovesEachLane : ∃ x y : Nat, x < 5 ∧ y < 5 ∧ x = 4 ∧ y = 4 := ⟨4, 4, by decide⟩

theorem witness_KeccakPermutationIsInjective :
    ∃ A B : Lanes, theta A = theta B ∧ rhoPi A = rhoPi B ∧ chi A = chi B ∧ iota A 0 = iota B 0 ∧
      keccakF A = keccakF B :=
  ⟨Vector.replicate 25 1, Vector.replicate 25 1, rfl, rfl, rfl, rfl, rfl⟩

theorem witness_AbsorbXorsLeadingBytes :
    ∃ (a : Alg) (b : List Byte), b.length = a.cap ∧ (0 < b.length) ∧ a.cap ≤ 199 ∧ 199 < 200 :=
  ⟨.shake128, zeros 168, by simp [Alg.cap], by simp, by decide, by decide⟩

/-- The invariant at an engine under SHAKE128 with bytes in BUF and its FINAL_XOF about to be taken. -/
theorem witness_StepKeepsInvariant : ∃ s : State, Inv s ∧ ∃ t, step s = .next t := by
  refine ⟨hosting [.write 0x04000000] (engine .shake128 5), ?_, ?_⟩
  · constructor <;> simp [hosting, engine, State.reset, Alg.kind, Alg.cap, lenMax, ErrState.clear, Frame.idle]
  · have h0 : outNeeded 0x04000000 (hosting [.write 0x04000000] (engine .shake128 5)) = 0 := by decide
    have hw : mustWait Config.outDepth 0x04000000 (hosting [.write 0x04000000] (engine .shake128 5)) = false := by
      simp only [mustWait, h0, roomFor_zero]
      rfl
    rw [step_write _ 0x04000000 [] rfl, hw]
    exact ⟨_, rfl⟩

/-- Two states whose BUF differs above FILL, and whose H differs under a sponge. -/
theorem witness_UndefinedStorageIsNeverObserved : ∃ s t : State, SameVisible s t ∧ s.ctx.h ≠ t.ctx.h := by
  refine ⟨engine .sha3_256 0,
    { engine .sha3_256 0 with
      ctx := { (engine .sha3_256 0).ctx with buf := Vector.replicate 168 7, h := Vector.replicate 5 9 } }, ?_, ?_⟩
  · simp [SameVisible, SameVisibleContext, SameVisibleReader, engine, Alg.kind]
  · decide

theorem witness_HashProgramEmitsDigest :
    ∃ (a : Alg) (m : List Byte) (s : State) (rest : List HostOp),
      (a.kind = .md ∨ a.kind = .fixed) ∧ m.length ≤ lenMax a.kind ∧ Ready s ∧ s.frame = Frame.idle ∧
      s.out.length + 64 ≤ 65535 ∧ s.host = (assemble (.hash (a.code.zeroExtend 8) m)).map .write ++ rest :=
  ⟨.ripemd160, [0x61, 0x62, 0x63],
    hosting ([0x01010000, 0x02000003, 0x00636261, 0x03000000].map .write ++ [.readOut]) (engine .sha3_256 9),
    [.readOut], by decide, by decide, ⟨rfl, rfl⟩, rfl, by decide, by decide⟩

theorem witness_XofProgramEmitsStream :
    ∃ (a : Alg) (m : List Byte) (n : Nat) (s : State) (rest : List HostOp),
      a.kind = .xof ∧ m.length ≤ lenMax a.kind ∧ Ready s ∧ s.frame = Frame.idle ∧ s.out.length + n ≤ 65535 ∧
      s.host = (assemble (.xof (a.code.zeroExtend 8) m n)).map .write ++ rest :=
  ⟨.shake128, [], 32, hosting ([0x01060000, 0x02000000, 0x04000000, 0x05000020].map .write) State.reset, [],
    by decide, by decide, ⟨rfl, rfl⟩, rfl, by decide, by decide⟩

theorem witness_InstancesAreIndependent :
    ∃ (i : Fin Config.nInstances) (p : Platform), ∃ q, platformStep i p = .next q := by
  refine ⟨⟨0, Nat.succ_pos _⟩, Vector.replicate _ State.reset, ?_⟩
  unfold platformStep
  rw [step_idle _ (by simp [State.reset])]
  exact ⟨_, rfl⟩

end Sys2Proof.Tests
end

section
/-! PROOFS. Scope and parameters (spec/00_scope.md): the algorithm table R8 and the length limits R9. -/

namespace Sys2Proof.Machine

/-- R8, last column: a sponge, fixed or extendable, has the capacity 1600 − 8 × rate. -/
theorem capacityBits_of_sponge {a : Alg} (h : a.kind = .fixed ∨ a.kind = .xof) :
    a.capacityBits = some (1600 - 8 * a.cap) := by
  obtain h | h := h <;> simp [Alg.capacityBits, h]

/-- Settles O47: row by row, each column is the table's entry; the capacity follows from the kind and the rate, and
the limits are the powers of two of R9 written out. -/
theorem algorithmTable : Obligations.AlgorithmTable := by
  refine ⟨?fixed, ?xof, ⟨rfl, rfl, rfl, rfl⟩, ⟨rfl, rfl⟩, ?limits⟩
  case fixed =>
    simp only [List.forall_mem_cons]
    refine ⟨?sha3_224, ?sha3_256, ?sha3_384, ?sha3_512, List.forall_mem_nil _⟩ <;>
      exact ⟨rfl, rfl, rfl, rfl, rfl, capacityBits_of_sponge (.inl rfl)⟩
  case xof =>
    simp only [List.forall_mem_cons]
    refine ⟨?shake128, ?shake256, List.forall_mem_nil _⟩ <;>
      exact ⟨rfl, rfl, rfl, rfl, capacityBits_of_sponge (.inr rfl)⟩
  case limits =>
    norm_num [lenMax]

end Sys2Proof.Machine
end

section
/-! PROOFS. The status register file (spec/10_state.md R50 to R57), the byte view of a Keccak state (R39), and the values
after a hardware reset (R58, R380, R381). -/

namespace Sys2Proof.Machine

/-! ### The status register file -/

/-- Settles O13: `statusAt` gives each of the eight registers, which the read returns, and by `statusRead_cases` no
other offset has one. -/
theorem statusReadReturnsRegister : Obligations.StatusReadReturnsRegister := by
  intro s off rest hhost
  rw [step_readStatus s off rest hhost]
  constructor
  · intro v hv
    have hat : statusAt off { s with host := rest } = some v := by
      obtain ⟨rfl, rfl⟩ | ⟨rfl, rfl⟩ | ⟨rfl, rfl⟩ | ⟨rfl, rfl⟩ | ⟨rfl, rfl⟩ | ⟨rfl, rfl⟩ | ⟨rfl, rfl⟩ | ⟨rfl, rfl⟩ :=
        hv <;> rfl
    simp only [statusRead, hat]
  · intro hoff
    obtain ⟨hlt, hmod, _⟩ | ⟨_, hread⟩ := statusRead_cases off { s with host := rest }
    · omega
    · exact hread

/-- Settles O14: the two cases of `statusWrite_cases` are the two of the statement. -/
theorem statusWriteIsIgnored : Obligations.StatusWriteIsIgnored := by
  intro s off v rest hhost
  rw [step_writeStatus s off v rest hhost]
  obtain ⟨hlt, hwrite⟩ | ⟨hge, hwrite⟩ := statusWrite_cases off { s with host := rest }
  · exact ⟨fun _ => hwrite, fun hge => by omega⟩
  · exact ⟨fun hlt => by omega, fun _ => hwrite⟩

/-- R53: LEN_HI and LEN_LO are the two halves of LEN. -/
theorem lenHiReg_lenLoReg (s : State) :
    (lenHiReg s).toNat * 2 ^ 32 + (lenLoReg s).toNat = s.ctx.len.toNat := by
  simp only [lenHiReg, lenLoReg, BitVec.extractLsb'_toNat, Nat.shiftRight_eq_div_pow]
  omega

/-- Settles O15: reading a field of a concatenation drops the parts below it and above it, which leaves the one part
that stands at those bits. -/
theorem statusFieldsCopyState : Obligations.StatusFieldsCopyState := by
  intro s
  refine ⟨?alg, ?rvalid, ?halt, ?pend, ?gap6, ?cause, ?gap12, ?fill, ?gap24, ?rpos, ?rrate, ?ralg, ?gap19,
    lenHiReg_lenLoReg s, rfl, ?prem, ?gap16⟩
  case rvalid | halt | pend =>
    simp only [statusReg, BitVec.getLsbD_append]
    simp [bit]
  case alg | gap6 | cause | gap12 | fill | gap24 | rpos | rrate | ralg | gap19 | prem | gap16 =>
    simp (disch := omega) only [statusReg, rdrStatusReg, frameReg, BitVec.extractLsb'_append_eq_of_le,
      BitVec.extractLsb'_append_eq_right, BitVec.extractLsb'_eq_self, Nat.reduceSub]

/-! ### The byte view -/

/-- R39: in a string of lanes, each as its 8 bytes, byte j is byte j mod 8 of lane j div 8. -/
theorem flatMap_bytesLE_getElem? (lanes : List Lane) (j : Nat) (hj : j < 8 * lanes.length) :
    (lanes.flatMap (bytesLE 8))[j]? = some (byteOf (lanes.getD (j / 8) 0) (j % 8)) := by
  induction lanes generalizing j with
  | nil => simp at hj
  | cons l lanes ih =>
    rw [List.flatMap_cons]
    by_cases h8 : j < 8
    · rw [List.getElem?_append_left (by simpa using h8), Nat.div_eq_of_lt h8, Nat.mod_eq_of_lt h8]
      simp [bytesLE, h8]
    · have hrest : j - 8 < 8 * lanes.length := by rw [List.length_cons] at hj; omega
      have hdiv : j / 8 = (j - 8) / 8 + 1 := by omega
      have hmod : j % 8 = (j - 8) % 8 := by omega
      rw [List.getElem?_append_right (by simpa using h8), bytesLE_length, ih (j - 8) hrest, hdiv, hmod,
        List.getD_cons_succ]

/-- Settles O49: the length is 25 times 8, and byte j is read off the string of lanes. -/
theorem stateByteView : Obligations.StateByteView := by
  intro S
  refine ⟨by simp [stateBytes, List.length_flatMap], fun j h => ⟨?_, ?_⟩⟩
  · exact flatMap_bytesLE_getElem? S.toList j (by simpa using h)
  · have hlane : j / 8 < 25 := by omega
    simp [stateByte, byteOf, hlane]

/-! ### Reset -/

/-- Settles O19: a reset that comes next is performed whatever word comes with it, and each conjunct is a field of
`hardwareReset`. -/
theorem hardwareResetValues : Obligations.HardwareResetValues := by
  intro s w rest hhost
  refine ⟨_, step_reset s w rest hhost, ?_⟩
  simp [ErrState.clear, Frame.idle, Cause.code]

/-- Settles O20: each register is a concatenation or a part of elements that reset to 0. -/
theorem resetStatusRegistersReadZero : Obligations.ResetStatusRegistersReadZero := by
  unfold Obligations.ResetStatusRegistersReadZero
  decide

end Sys2Proof.Machine
end

section
/-! PROOFS. The bytes a command emits (R37, R392), and the invariant of a run (R34, R35, R37, R42 to R45, R48): each
operation that writes the state keeps it, and so does the step. -/

namespace Sys2Proof.Machine

/-! ### What a command emits -/

/-- R8: an extendable-output algorithm has no digest. -/
theorem outLen_of_xof {a : Alg} (h : a.kind = .xof) : a.outLen = 0 := by
  cases a <;> simp [Alg.kind, Alg.outLen] at h ⊢

/-- Settles O45: command by command; an error emits nothing, FINAL a digest and READ the squeezed bytes. -/
theorem commandsEmitTheirCount : Obligations.CommandsEmitTheirCount := by
  intro i s t h
  cases i with
  | init arg =>
    obtain ⟨_, hx⟩ | ⟨a, _, hx⟩ := execInit_cases arg s <;> cases hx.symm.trans h <;>
      exact ⟨[], by simp, rfl⟩
  | update n =>
    obtain ⟨_, hx⟩ | ⟨_, _, hx⟩ | ⟨_, _, _, hx⟩ | ⟨_, _, _, hx⟩ := execUpdate_cases n s <;> cases hx.symm.trans h <;>
      exact ⟨[], by simp, rfl⟩
  | finalXof =>
    obtain ⟨_, hx⟩ | ⟨_, _, hx⟩ | ⟨_, hx⟩ := execFinalXof_cases s <;> cases hx.symm.trans h <;>
      exact ⟨[], by simp, rfl⟩
  | final =>
    obtain ⟨hnone, hx⟩ | ⟨hxof, hx⟩ | ⟨_, _, hx⟩ := execFinal_cases s <;> cases hx.symm.trans h
    · exact ⟨[], by simp, by simp [outBytes, hnone, Alg.outLen]⟩
    · exact ⟨[], by simp, by simp [outBytes, outLen_of_xof hxof]⟩
    · exact ⟨_, finalBody_out s, by simp [outBytes]⟩
  | read n =>
    obtain ⟨hv, hx⟩ | ⟨hv, hx⟩ := execRead_cases n s <;> cases hx.symm.trans h
    · exact ⟨[], by simp, by simp [outBytes, hv]⟩
    · exact ⟨_, readBody_out n.toNat s, by simp [outBytes, hv]⟩

/-! ### The parts of the invariant that a command builds anew -/

/-- What `Inv` says of the reader slot by itself (R42, R43, R52). -/
def ReaderInv (r : Reader) : Prop :=
  (r.valid = true → r.alg.kind = .xof ∧ r.rate.toNat = r.alg.cap ∧ r.pos.toNat ≤ r.rate.toNat) ∧
  (r.valid = false → r.alg = .none ∧ r.rate = 0 ∧ r.pos = 0)

/-- What `Inv` says of OUT (R37, R392). -/
def OutFits (s : State) : Prop := ∀ d, Config.outDepth = some d → s.out.length ≤ d

theorem Inv.readerInv {s : State} (hs : Inv s) : ReaderInv s.reader := ⟨hs.reader_ok, hs.no_reader⟩

/-- R265: the reader that FINAL_XOF makes. -/
theorem readerInv_newReader {c : Context} (hk : c.alg.kind = .xof) : ReaderInv (newReader c) := by
  refine ⟨fun _ => ⟨hk, ?_, Nat.zero_le _⟩, fun h => absurd h (by simp [newReader])⟩
  have hcap := cap_le c.alg
  simp only [newReader, BitVec.toNat_ofNat]
  omega

/-- R43, R266: READ moves the cursor within the window; the window is not empty, for a reader's algorithm has a rate. -/
theorem ReaderInv.squeeze {r : Reader} (h : ReaderInv r) (hv : r.valid = true) (n : Nat) :
    ReaderInv (squeeze n r).2 := by
  obtain ⟨hkind, hrate, hpos⟩ := h.1 hv
  have halg : r.alg ≠ .none := fun hnone => by simp [hnone, Alg.kind] at hkind
  have hpos' := squeeze_pos_le n r hpos (hrate ▸ cap_pos r.alg halg)
  exact ⟨fun _ => by simpa using ⟨hkind, hrate, hpos'⟩, fun hf => by simp [hv] at hf⟩

/-- R392: a command for whose output there was room leaves OUT within its capacity. -/
theorem outFits_of_exec {i : Instr} {s t : State} (hs : Inv s)
    (hroom : roomFor Config.outDepth (outBytes i s) s = true) (h : exec i s = .next t) : OutFits t := by
  intro d hd
  obtain ⟨bs, hout, hlen⟩ := commandsEmitTheirCount i s t h
  rw [hout, List.length_append, hlen]
  exact out_le_of_roomFor _ s hroom hs.out_le d hd

/-! ### The operations keep the invariant -/

/-- The invariant reads neither the host's side nor the counter of the free values, and OUT may only shrink. -/
theorem Inv.of_engine_eq {s t : State} (hs : Inv s) (hctx : t.ctx = s.ctx) (hreader : t.reader = s.reader)
    (herr : t.err = s.err) (hframe : t.frame = s.frame) (hout : t.out.length ≤ s.out.length) : Inv t := by
  obtain ⟨ctx, reader, err, frame, out, host, seen, drain, free⟩ := t
  subst hctx hreader herr hframe
  exact { hs with out_le := fun d hd => hout.trans (hs.out_le d hd) }

/-- R340: error entry. -/
theorem Inv.raiseError {s : State} (hs : Inv s) {c : Cause} (hc : c ≠ .none) (w : Word) : Inv (raiseError c w s) :=
  { hs with
    no_error := fun h => absurd h (by simp)
    error_cause := fun _ => hc
    halted_idle := fun _ => rfl
    frame_idle := fun _ => rfl
    frame_open := fun h => absurd h (by simp [Frame.idle]) }

/-- R305: an accepted UPDATE header opens a payload of its n bytes. -/
theorem Inv.openPayload {s : State} (hs : Inv s) (hhalt : s.err.halt = false) (halg : s.ctx.alg ≠ .none)
    {n : BitVec 16} (hn : n ≠ 0) (hlen : s.ctx.len.toNat + n.toNat ≤ lenMax s.ctx.alg.kind) :
    Inv (openPayload n s) :=
  { hs with
    halted_idle := fun h => absurd h (by simp [hhalt])
    frame_idle := fun h => absurd h (by simp)
    frame_open := fun _ => ⟨halg, Nat.pos_of_ne_zero fun h0 => hn (BitVec.eq_of_toNat_eq h0), n, rfl, by simp, hlen⟩ }

/-- R301: what INIT, FINAL and FINAL_XOF leave: an initial context, a reader slot as it should be, and the error and
frame state as they were. -/
theorem Inv.of_freshContext {s t : State} (hs : Inv s) (hpend : s.frame.pend = false) {a : Alg} (ha : a ≠ .none)
    (hctx : FreshContext a t.ctx) (hreader : ReaderInv t.reader) (herr : t.err = s.err) (hframe : t.frame = s.frame)
    (hout : OutFits t) : Inv t := by
  obtain ⟨halg, hfill, hlen, hh, hS⟩ := hctx
  have hcfg : t.ctx.alg ≠ .none := halg ▸ ha
  exact
    { fill_lt := fun _ => by simpa [hfill] using cap_pos _ hcfg
      unconfigured := fun h => absurd h hcfg
      len_le := by simp [hlen]
      md_state_zero := fun _ => hS
      sponge_chain_iv := fun _ => hh
      reader_ok := hreader.1
      no_reader := hreader.2
      reader_configured := fun _ => hcfg
      no_error := by rw [herr]; exact hs.no_error
      error_cause := by rw [herr]; exact hs.error_cause
      halted_idle := by rw [herr, hframe]; exact hs.halted_idle
      frame_idle := by rw [hframe]; exact hs.frame_idle
      frame_open := fun h => by simp [hframe, hpend] at h
      out_le := hout }

/-- R58: the reset values give the invariant; BUF, H, S and RS are not among them. -/
theorem inv_of_resetValues {s : State} (halg : s.ctx.alg = .none) (hfill : s.ctx.fill = 0) (hlen : s.ctx.len = 0)
    (hvalid : s.reader.valid = false) (hreader : s.reader.alg = .none ∧ s.reader.rate = 0 ∧ s.reader.pos = 0)
    (herr : s.err = ErrState.clear) (hframe : s.frame = Frame.idle) (hout : s.out = []) : Inv s where
  fill_lt h := absurd halg h
  unconfigured _ := ⟨hfill, hlen⟩
  len_le := by simp [hlen]
  md_state_zero h := by simp [halg] at h
  sponge_chain_iv h := by simp [halg, Alg.kind] at h
  reader_ok h := by simp [hvalid] at h
  no_reader _ := hreader
  reader_configured h := by simp [hvalid] at h
  no_error _ := herr
  error_cause h := by simp [herr, ErrState.clear] at h
  halted_idle _ := hframe
  frame_idle _ := hframe
  frame_open h := by simp [hframe, Frame.idle] at h
  out_le d _ := by simp [hout]

/-- Settles O54. -/
theorem invariantHoldsAtReset : Obligations.InvariantHoldsAtReset :=
  inv_of_resetValues rfl rfl rfl rfl ⟨rfl, rfl, rfl⟩ rfl rfl rfl

/-- R380: the hardware reset gives the invariant, whatever was before. -/
theorem inv_hardwareReset (s : State) : Inv (hardwareReset s) :=
  inv_of_resetValues rfl rfl rfl rfl ⟨rfl, rfl, rfl⟩ rfl rfl rfl

/-- R304, R306: UPDATE_BODY on the whole payload, after which nothing is pending. The payload keeps LEN within LEN_MAX,
so the sum in LEN does not wrap. -/
theorem Inv.updateBody {s : State} (hs : Inv s) (halg : s.ctx.alg ≠ .none)
    {data : List Byte} (hlen : s.ctx.len.toNat + data.length ≤ lenMax s.ctx.alg.kind) (f : Frame) :
    Inv { updateBody data { s with frame := f } with frame := Frame.idle } := by
  have hmax := lenMax_lt s.ctx.alg.kind
  have hsum : (s.ctx.len + BitVec.ofNat 64 data.length).toNat = s.ctx.len.toNat + data.length := by
    rw [BitVec.toNat_add, BitVec.toNat_ofNat]; omega
  exact
    { hs with
      fill_lt := fun _ => by
        simpa using process_fill_lt data { s.ctx with len := s.ctx.len + BitVec.ofNat 64 data.length } (hs.fill_lt halg)
      unconfigured := fun h => absurd (by simpa using h) halg
      len_le := by simpa [hsum] using hlen
      md_state_zero := fun h => by
        have hmd : s.ctx.alg.kind = .md := by simpa using h
        simp [process_s_of_md, hmd, hs.md_state_zero hmd]
      sponge_chain_iv := fun h => by
        have hsponge : s.ctx.alg.kind = .fixed ∨ s.ctx.alg.kind = .xof := by simpa using h
        have hne : s.ctx.alg.kind ≠ .md := by obtain hk | hk := hsponge <;> rw [hk] <;> decide
        simp [process_h_of_sponge, hne, hs.sponge_chain_iv hsponge]
      reader_configured := fun _ => by simpa using halg
      halted_idle := fun _ => rfl
      frame_idle := fun _ => rfl
      frame_open := fun h => absurd h (by simp [Frame.idle]) }

/-- R104: a payload word takes at most PREM of PREM, so the difference does not wrap. -/
theorem toNat_sub_payload (prem : BitVec 16) :
    (prem - BitVec.ofNat 16 (min 4 prem.toNat)).toNat = prem.toNat - min 4 prem.toNat := by
  rw [BitVec.toNat_sub, BitVec.toNat_ofNat]
  omega

/-- R104: a payload word is collected, or completes the UPDATE. -/
theorem Inv.payloadWord {s : State} (hs : Inv s) (hhalt : s.err.halt = false) (hpend : s.frame.pend = true)
    (w : Word) : Inv (payloadWord w s) := by
  obtain ⟨halg, hprem, n, hphdr, hsplit, hlen⟩ := hs.frame_open hpend
  have hsub := toNat_sub_payload s.frame.prem
  obtain ⟨hlast, hword⟩ | ⟨hmore, hword⟩ := payloadWord_cases w s <;> rw [hword]
  · have hzero : s.frame.prem.toNat - min 4 s.frame.prem.toNat = 0 := by rw [← hsub, hlast]; rfl
    refine hs.updateBody halg ?_ _
    rw [List.length_append, payloadBytes_length]
    omega
  · have hpos : (s.frame.prem - BitVec.ofNat 16 (min 4 s.frame.prem.toNat)).toNat ≠ 0 :=
      fun h0 => hmore (BitVec.eq_of_toNat_eq h0)
    exact
      { hs with
        halted_idle := fun h => absurd h (by simp [hhalt])
        frame_idle := fun h => absurd h (by simp [hpend])
        frame_open := fun _ => ⟨halg, by simp only; omega, n, hphdr, by
          simp only [List.length_append, payloadBytes_length]; omega, hlen⟩ }

/-- Every command keeps the invariant, on an engine that can look at a header word and has room for its output. -/
theorem Inv.exec {i : Instr} {s t : State} (hs : Inv s) (hready : Ready s)
    (hroom : roomFor Config.outDepth (outBytes i s) s = true) (h : exec i s = .next t) : Inv t := by
  obtain ⟨hhalt, hpend⟩ := hready
  have hout : OutFits t := outFits_of_exec hs hroom h
  cases i with
  | init arg =>
    obtain ⟨_, hx⟩ | ⟨a, ha, hx⟩ := execInit_cases arg s <;> cases hx.symm.trans h
    · exact hs.raiseError (by decide) _
    · exact hs.of_freshContext hpend (algOfArg_ne_none arg a ha) ⟨rfl, rfl, rfl, rfl, rfl⟩ hs.readerInv rfl rfl hout
  | update n =>
    obtain ⟨_, hx⟩ | ⟨_, _, hx⟩ | ⟨_, _, _, hx⟩ | ⟨halg, hlen, hn, hx⟩ := execUpdate_cases n s <;>
      cases hx.symm.trans h
    · exact hs.raiseError (by decide) _
    · exact hs.raiseError (by decide) _
    · exact hs
    · exact hs.openPayload hhalt halg hn hlen
  | final =>
    obtain ⟨_, hx⟩ | ⟨_, hx⟩ | ⟨halg, _, hx⟩ := execFinal_cases s <;> cases hx.symm.trans h
    · exact hs.raiseError (by decide) _
    · exact hs.raiseError (by decide) _
    · exact hs.of_freshContext hpend halg ⟨by simp, rfl, rfl, rfl, rfl⟩ hs.readerInv rfl rfl hout
  | finalXof =>
    obtain ⟨_, hx⟩ | ⟨_, _, hx⟩ | ⟨hxof, hx⟩ := execFinalXof_cases s <;> cases hx.symm.trans h
    · exact hs.raiseError (by decide) _
    · exact hs.raiseError (by decide) _
    · have halg : s.ctx.alg ≠ .none := fun hnone => by simp [hnone, Alg.kind] at hxof
      exact hs.of_freshContext hpend halg ⟨by simp, rfl, rfl, rfl, rfl⟩ (readerInv_newReader (by simpa using hxof))
        rfl rfl hout
  | read n =>
    obtain ⟨_, hx⟩ | ⟨hv, hx⟩ := execRead_cases n s <;> cases hx.symm.trans h
    · exact hs.raiseError (by decide) _
    · obtain ⟨hok, hno⟩ := hs.readerInv.squeeze hv n.toNat
      exact { hs with reader_ok := hok, no_reader := hno, reader_configured := fun _ => hs.reader_configured hv,
                      out_le := hout }

/-- R103: so does a header word, when it need not wait. -/
theorem Inv.headerWord {w : Word} {s t : State} (hs : Inv s) (hready : Ready s)
    (hroom : roomFor Config.outDepth (outNeeded w s) s = true) (h : headerWord w s = .next t) : Inv t := by
  obtain ⟨i, hdec, hw⟩ | ⟨r, _, hw⟩ := headerWord_cases w s
  · exact hs.exec hready (by simpa only [outNeeded, hdec] using hroom) (hw.symm.trans h)
  · cases hw.symm.trans h
    exact hs.raiseError (by cases r <;> decide) w

/-- R102: so does any word taken, when it need not wait. -/
theorem Inv.takeWord {w : Word} {s t : State} (hs : Inv s) (hwait : mustWait Config.outDepth w s = false)
    (h : takeWord w s = .next t) : Inv t := by
  obtain ⟨_, ht⟩ | ⟨hhalt, hpend, ht⟩ | ⟨hhalt, hpend, ht⟩ := takeWord_cases w s
  · cases ht.symm.trans h
    exact hs
  · cases ht.symm.trans h
    exact hs.payloadWord hhalt hpend w
  · exact hs.headerWord ⟨hhalt, hpend⟩ (by simpa [mustWait, hhalt, hpend] using hwait) (ht.symm.trans h)

/-- R392: a waiting word changes nothing, or lets another thread of the host take the head of OUT. -/
theorem drainStep_cases (s : State) :
    drainStep s = s ∨ ∃ n b bs, s.drain = n + 1 ∧ s.out = b :: bs ∧
      drainStep s = { s with out := bs, seen := s.seen ++ [.outByte b], drain := n } := by
  unfold drainStep
  split
  · rename_i n b bs hdrain hout
    exact .inr ⟨n, b, bs, hdrain, hout, rfl⟩
  · exact .inl rfl

/-- Settles O55: by the host's next transaction. -/
theorem stepKeepsInvariant : Obligations.StepKeepsInvariant := by
  intro s t hs h
  cases hhost : s.host with
  | nil =>
    cases (step_idle s hhost).symm.trans h
    exact hs
  | cons op rest =>
    have hrest : Inv { s with host := rest } := hs.of_engine_eq rfl rfl rfl rfl (Nat.le_refl _)
    cases op with
    | write w =>
      rw [step_write s w rest hhost] at h
      cases hwait : mustWait Config.outDepth w s with
      | true =>
        rw [hwait, if_pos rfl] at h
        cases h
        obtain hsame | ⟨n, b, bs, _, hout, hdrain⟩ := drainStep_cases s
        · rwa [hsame]
        · rw [hdrain]
          exact hs.of_engine_eq rfl rfl rfl rfl (by simp [hout])
      | false =>
        rw [hwait, if_neg (by decide)] at h
        exact hrest.takeWord hwait h
    | readOut =>
      rw [step_readOut s rest hhost] at h
      obtain ⟨_, hread⟩ | ⟨b, bs, hout, hread⟩ := responseRead_cases { s with host := rest } <;>
        cases hread.symm.trans h
      exact hrest.of_engine_eq rfl rfl rfl rfl (by rw [hout]; exact Nat.le_succ _)
    | readStatus off =>
      rw [step_readStatus s off rest hhost] at h
      obtain ⟨_, _, v, _, hread⟩ | ⟨_, hread⟩ := statusRead_cases off { s with host := rest } <;>
        cases hread.symm.trans h
      exact hrest.of_engine_eq rfl rfl rfl rfl (Nat.le_refl _)
    | writeStatus off v =>
      rw [step_writeStatus s off v rest hhost] at h
      obtain ⟨_, hwrite⟩ | ⟨_, hwrite⟩ := statusWrite_cases off { s with host := rest } <;>
        cases hwrite.symm.trans h
      exact hrest
    | reset together =>
      cases (step_reset s together rest hhost).symm.trans h
      exact inv_hardwareReset _

end Sys2Proof.Machine
end

section
/-! PROOFS. Storage without a defined value is never observed (R33, R47, R48, R58): each operation gives states that
differ at most in such storage from states that do, down to the step. -/

namespace Sys2Proof.Machine

/-! ### The parts of the relation, by name -/

section Parts

variable {c d : Context} (h : SameVisibleContext c d)
include h

theorem SameVisibleContext.alg_eq : c.alg = d.alg := h.1
theorem SameVisibleContext.fill_eq : c.fill = d.fill := h.2.1
theorem SameVisibleContext.len_eq : c.len = d.len := h.2.2.1

end Parts

section Parts

variable {s t : State} (h : SameVisible s t)
include h

theorem SameVisible.ctx : SameVisibleContext s.ctx t.ctx := h.1
theorem SameVisible.reader : SameVisibleReader s.reader t.reader := h.2.1
theorem SameVisible.err_eq : s.err = t.err := h.2.2.1
theorem SameVisible.frame_eq : s.frame = t.frame := h.2.2.2.1
theorem SameVisible.host_eq : s.host = t.host := h.2.2.2.2.2.1

end Parts

theorem SameVisibleReader.valid_eq {r q : Reader} (h : SameVisibleReader r q) : r.valid = q.valid := h.1

/-! ### The block buffer -/

/-- R33: the bytes below FILL are the same, so what BLOCK and the paddings take of BUF is. -/
theorem SameVisibleContext.bufHead_eq {c d : Context} (h : SameVisibleContext c d) {k : Nat} (hk : k ≤ c.fill.toNat) :
    bufHead c k = bufHead d k := by
  obtain ⟨_, _, _, hbuf, _, _⟩ := h
  apply List.ext_getElem
  · simp
  · intro i hc hd
    rw [bufHead_length] at hc
    simpa [bufHead] using hbuf ⟨i, by omega⟩ (by simp only; omega)

/-- With FILL at 0 no byte of BUF is read. -/
theorem SameVisibleContext.emptied {c d : Context} (h : SameVisibleContext c d) :
    SameVisibleContext { c with fill := 0 } { d with fill := 0 } := by
  obtain ⟨halg, _, hlen, _, hh, hS⟩ := h
  exact ⟨halg, rfl, hlen, fun i hi => absurd hi (Nat.not_lt_zero _), hh, hS⟩

/-- R141: BLOCK reads and writes H or S, the one that ALG makes visible. -/
theorem SameVisibleContext.block {c d : Context} (h : SameVisibleContext c d) (b : List Byte) :
    SameVisibleContext (block c b) (block d b) := by
  obtain ⟨halg, hfill, hlen, hbuf, hh, hS⟩ := h
  by_cases hk : c.alg.kind = .md
  · rw [block_md c b hk, block_md d b (halg ▸ hk)]
    exact ⟨halg, hfill, hlen, hbuf, fun _ => by simp only [hh hk], hS⟩
  · rw [block_sponge c b hk, block_sponge d b (halg ▸ hk)]
    exact ⟨halg, hfill, hlen, hbuf, hh, fun hsponge => by simp only [hS hsponge, halg]⟩

theorem SameVisibleContext.foldl_block {c d : Context} (h : SameVisibleContext c d) (bs : List (List Byte)) :
    SameVisibleContext (bs.foldl Machine.block c) (bs.foldl Machine.block d) := by
  induction bs generalizing c d with
  | nil => exact h
  | cons b bs ih => exact ih (h.block b)

/-- R143: a full buffer is read up to CAP, which is FILL. -/
theorem SameVisibleContext.emptyFull {c d : Context} (h : SameVisibleContext c d) (hfull : c.fill.toNat = c.alg.cap) :
    SameVisibleContext (emptyFull c) (emptyFull d) := by
  unfold Machine.emptyFull
  rw [← h.alg_eq, ← h.bufHead_eq hfull.ge]
  exact (h.block _).emptied

/-- R143: the byte that a context takes is below the new FILL. -/
theorem SameVisibleContext.pushByte {c d : Context} (h : SameVisibleContext c d) (x : Byte) :
    SameVisibleContext { c with buf := c.buf.setIfInBounds c.fill.toNat x, fill := c.fill + 1 }
      { d with buf := d.buf.setIfInBounds d.fill.toNat x, fill := d.fill + 1 } := by
  obtain ⟨halg, hfill, hlen, hbuf, hh, hS⟩ := h
  refine ⟨halg, by simp only [hfill], hlen, fun i hi => ?_, hh, hS⟩
  have hle : (c.fill + 1).toNat ≤ c.fill.toNat + 1 := by rw [BitVec.toNat_add]; exact Nat.mod_le _ _
  simp only [Fin.getElem_fin, Vector.getElem_setIfInBounds, ← hfill]
  split
  · rfl
  · exact hbuf i (by simp only at hi; omega)

/-- R143: the byte goes below FILL, and a block that becomes full is processed. -/
theorem SameVisibleContext.processByte {c d : Context} (h : SameVisibleContext c d) (x : Byte) :
    SameVisibleContext (processByte c x) (processByte d x) := by
  have hpush := h.pushByte x
  unfold Machine.processByte
  dsimp only
  rw [← h.alg_eq, ← h.fill_eq] at hpush ⊢
  split
  · exact hpush.emptyFull ‹_›
  · exact hpush

theorem SameVisibleContext.process {c d : Context} (h : SameVisibleContext c d) (data : List Byte) :
    SameVisibleContext (process data c) (process data d) := by
  induction data generalizing c d with
  | nil => exact h
  | cons x data ih => exact ih (h.processByte x)

/-! ### The paddings and the digest -/

theorem SameVisibleContext.emptyIfFull {c d : Context} (h : SameVisibleContext c d) :
    SameVisibleContext (emptyIfFull c) (emptyIfFull d) := by
  unfold Machine.emptyIfFull
  rw [← h.alg_eq, ← h.fill_eq]
  split
  · exact h.emptyFull ‹_›
  · exact h

/-- R145: the padding reads the bytes below FILL. -/
theorem SameVisibleContext.lengthPad {c d : Context} (h : SameVisibleContext c d) (bitlen : BitVec 64) :
    SameVisibleContext (lengthPad bitlen c) (lengthPad bitlen d) := by
  have he := h.emptyIfFull
  unfold Machine.lengthPad
  dsimp only
  rw [← he.alg_eq, ← he.fill_eq, ← he.bufHead_eq (Nat.le_refl _)]
  exact (he.foldl_block _).emptied

/-- R147: the padding reads the bytes below FILL. -/
theorem SameVisibleContext.padWith {c d : Context} (h : SameVisibleContext c d) (pad : Byte) :
    SameVisibleContext (padWith pad c) (padWith pad d) := by
  have he := h.emptyIfFull
  unfold Machine.padWith
  dsimp only
  rw [← he.alg_eq, ← he.fill_eq, ← he.bufHead_eq (Nat.le_refl _)]
  exact (he.block _).emptied

theorem SameVisibleContext.finalPad {c d : Context} (h : SameVisibleContext c d) :
    SameVisibleContext (finalPad c) (finalPad d) := by
  unfold Machine.finalPad bitLength
  rw [← h.alg_eq, ← h.len_eq]
  split
  · exact h.lengthPad _
  · exact h.padWith _

/-- R202, R263: the digest is of H under RIPEMD-160 and of S under SHA-3. -/
theorem SameVisibleContext.digestOf_eq {c d : Context} (h : SameVisibleContext c d)
    (hkind : c.alg.kind = .md ∨ c.alg.kind = .fixed) : digestOf c = digestOf d := by
  obtain ⟨halg, _, _, _, hh, hS⟩ := h
  unfold digestOf
  rw [← halg]
  split
  · rw [hh ‹_›]
  · rw [hS (.inl (hkind.resolve_left ‹_›))]

/-- R8: an algorithm that FINAL accepts. -/
theorem kind_md_or_fixed {a : Alg} (hnone : a ≠ .none) (hxof : a.kind ≠ .xof) : a.kind = .md ∨ a.kind = .fixed := by
  cases a <;> simp [Alg.kind] at hnone hxof ⊢

/-! ### The operations over the whole state -/

theorem SameVisible.withHost {s t : State} (h : SameVisible s t) (l : List HostOp) :
    SameVisible { s with host := l } { t with host := l } := by
  obtain ⟨hctx, hreader, herr, hframe, hout, _, hseen, hdrain⟩ := h
  exact ⟨hctx, hreader, herr, hframe, hout, rfl, hseen, hdrain⟩

theorem SameVisible.withCtx {s t : State} (h : SameVisible s t) {c d : Context} (hctx : SameVisibleContext c d) :
    SameVisible { s with ctx := c } { t with ctx := d } := by
  obtain ⟨_, hrest⟩ := h
  exact ⟨hctx, hrest⟩

theorem SameVisible.withReader {s t : State} (h : SameVisible s t) {r q : Reader} (hreader : SameVisibleReader r q) :
    SameVisible { s with reader := r } { t with reader := q } := by
  obtain ⟨hctx, _, hrest⟩ := h
  exact ⟨hctx, hreader, hrest⟩

theorem SameVisible.withFrame {s t : State} (h : SameVisible s t) (f : Frame) :
    SameVisible { s with frame := f } { t with frame := f } := by
  obtain ⟨hctx, hreader, herr, _, hrest⟩ := h
  exact ⟨hctx, hreader, herr, rfl, hrest⟩

theorem SameVisible.emit {s t : State} (h : SameVisible s t) (bs : List Byte) :
    SameVisible (emit bs s) (emit bs t) := by
  obtain ⟨hctx, hreader, herr, hframe, hout, hrest⟩ := h
  exact ⟨hctx, hreader, herr, hframe, by simp only [emit_out, hout], hrest⟩

theorem SameVisible.raiseError {s t : State} (h : SameVisible s t) (c : Cause) (w : Word) :
    SameVisible (raiseError c w s) (raiseError c w t) := by
  obtain ⟨hctx, hreader, _, _, hrest⟩ := h
  exact ⟨hctx, hreader, rfl, rfl, hrest⟩

/-- R33: the free values stand at FILL and above, where no rule reads. -/
theorem SameVisible.forgetStale {s t : State} (h : SameVisible s t) : SameVisible (forgetStale s) (forgetStale t) := by
  obtain ⟨⟨halg, hfill, hlen, hbuf, hh, hS⟩, hrest⟩ := h
  refine ⟨⟨halg, hfill, hlen, fun i hi => ?_, hh, hS⟩, hrest⟩
  have hi' : i.val < s.ctx.fill.toNat := hi
  simpa [staleAbove_get, hi', ← hfill] using hbuf i hi'

/-- R301: REINIT keeps nothing of the context but ALG. -/
theorem SameVisible.reinit {s t : State} (h : SameVisible s t) {c d : Context} (halg : c.alg = d.alg) :
    SameVisible (reinit { s with ctx := c }) (reinit { t with ctx := d }) :=
  (h.withCtx (c := reinitContext c) (d := reinitContext d)
    ⟨halg, rfl, rfl, fun _ hi => absurd hi (Nat.not_lt_zero _), fun _ => rfl, fun _ => rfl⟩).forgetStale

/-- R58: what a reset leaves unspecified is not visible: no byte is below FILL, no algorithm reads H or S, and no
reader reads RS. -/
theorem SameVisible.hardwareReset {s t : State} (h : SameVisible s t) :
    SameVisible (hardwareReset s) (hardwareReset t) := by
  obtain ⟨_, _, _, _, _, hhost, hseen, hdrain⟩ := h
  have hctx : SameVisibleContext (Machine.hardwareReset s).ctx (Machine.hardwareReset t).ctx := by
    simp [SameVisibleContext, Alg.kind]
  have hreader : SameVisibleReader (Machine.hardwareReset s).reader (Machine.hardwareReset t).reader := by
    simp [SameVisibleReader]
  exact ⟨hctx, hreader, by simp, by simp, by simp, by simpa using hhost, by simpa using hseen, by simpa using hdrain⟩

/-- R306: UPDATE_BODY counts and processes visible bytes. -/
theorem SameVisible.updateBody {s t : State} (h : SameVisible s t) (data : List Byte) :
    SameVisible (updateBody data s) (updateBody data t) := by
  obtain ⟨halg, hfill, hlen, hrest⟩ := h.ctx
  have hcount : SameVisibleContext { s.ctx with len := s.ctx.len + BitVec.ofNat 64 data.length }
      { t.ctx with len := t.ctx.len + BitVec.ofNat 64 data.length } :=
    ⟨halg, hfill, by simp only [hlen], hrest⟩
  exact (h.withCtx (hcount.process data)).forgetStale

/-- R104: the frame state, which a payload word reads, is the same. -/
theorem SameVisible.payloadWord {s t : State} (h : SameVisible s t) (w : Word) :
    SameVisible (payloadWord w s) (payloadWord w t) := by
  simp only [Machine.payloadWord, ← h.frame_eq]
  split
  · exact ((h.withFrame _).updateBody _).withFrame _
  · exact h.withFrame _

/-- R311: FINAL emits the same digest. -/
theorem SameVisible.finalBody {s t : State} (h : SameVisible s t)
    (hkind : s.ctx.alg.kind = .md ∨ s.ctx.alg.kind = .fixed) : SameVisible (finalBody s) (finalBody t) := by
  have hpad := h.ctx.finalPad
  simp only [Machine.finalBody, ← hpad.digestOf_eq (by simpa using hkind)]
  exact (h.emit _).reinit hpad.alg_eq

/-- R265: the new reader takes S, which an extendable-output algorithm makes visible. -/
theorem SameVisible.finalXofBody {s t : State} (h : SameVisible s t) (hkind : s.ctx.alg.kind = .xof) :
    SameVisible (finalXofBody s) (finalXofBody t) := by
  obtain ⟨halg, _, _, _, _, hS⟩ := h.ctx.finalPad
  have hreader : SameVisibleReader (newReader (Machine.finalPad s.ctx)) (newReader (Machine.finalPad t.ctx)) :=
    ⟨rfl, halg, by simp only [newReader, halg], rfl, fun _ => hS (.inr (by simpa using hkind))⟩
  exact (h.withReader hreader).reinit halg

/-- R42: a reader that exists is visible whole. -/
theorem SameVisibleReader.eq_of_valid {r q : Reader} (h : SameVisibleReader r q) (hv : r.valid = true) : r = q := by
  obtain ⟨hvalid, halg, hrate, hpos, hrs⟩ := h
  cases r
  cases q
  simp only [Reader.mk.injEq]
  exact ⟨hvalid, halg, hrs hv, hrate, hpos⟩

/-- R320: READ emits the same bytes. -/
theorem SameVisible.readBody {s t : State} (h : SameVisible s t) (hv : s.reader.valid = true) (n : Nat) :
    SameVisible (readBody n s) (readBody n t) := by
  simp only [Machine.readBody, ← h.reader.eq_of_valid hv]
  exact (h.withReader ⟨rfl, rfl, rfl, rfl, fun _ => rfl⟩).emit _

theorem SameVisible.openPayload {s t : State} (h : SameVisible s t) (n : BitVec 16) :
    SameVisible (openPayload n s) (openPayload n t) := h.withFrame _

/-! ### Commands and words -/

/-- Every command: its checks read ALG, LEN and RVALID, which are the same. -/
theorem SameVisible.exec {s t : State} (h : SameVisible s t) (i : Instr) :
    SameVisibleOutcome (exec i s) (exec i t) := by
  have halg := h.ctx.alg_eq
  cases i with
  | init arg =>
    simp only [Machine.exec, execInit]
    cases algOfArg arg with
    | none => exact h.raiseError _ _
    | some a => exact h.reinit rfl
  | update n =>
    have hover : lenOverflows s.ctx n = lenOverflows t.ctx n := by simp only [lenOverflows, halg, h.ctx.len_eq]
    simp only [Machine.exec, execUpdate, ← halg, ← hover]
    split_ifs
    · exact h.raiseError _ _
    · exact h.raiseError _ _
    · exact h
    · exact h.openPayload n
  | final =>
    simp only [Machine.exec, execFinal, ← halg]
    split_ifs with hnone hxof
    · exact h.raiseError _ _
    · exact h.raiseError _ _
    · exact h.finalBody (kind_md_or_fixed hnone hxof)
  | finalXof =>
    simp only [Machine.exec, execFinalXof, ← halg]
    split_ifs with hnone hxof
    · exact h.raiseError _ _
    · exact h.raiseError _ _
    · exact h.finalXofBody (not_not.1 hxof)
  | read n =>
    simp only [Machine.exec, execRead, ← h.reader.valid_eq]
    split_ifs with hv
    · exact h.readBody hv _
    · exact h.raiseError _ _

/-- R103: the decoder looks at the word alone. -/
theorem SameVisible.headerWord {s t : State} (h : SameVisible s t) (w : Word) :
    SameVisibleOutcome (headerWord w s) (headerWord w t) := by
  unfold Machine.headerWord
  cases decode w with
  | command i => exact h.exec i
  | reject why => exact h.raiseError _ _

/-- R102: HALT and PEND, which choose what a word is, are visible. -/
theorem SameVisible.takeWord {s t : State} (h : SameVisible s t) (w : Word) :
    SameVisibleOutcome (takeWord w s) (takeWord w t) := by
  simp only [Machine.takeWord, ← h.err_eq, ← h.frame_eq]
  split_ifs
  · exact h
  · exact h.payloadWord w
  · exact h.headerWord w

/-! ### The host's transactions -/

/-- R392: whether a word waits depends on visible elements only. -/
theorem SameVisible.mustWait_eq {s t : State} (h : SameVisible s t) (depth : Option Nat) (w : Word) :
    mustWait depth w s = mustWait depth w t := by
  obtain ⟨⟨halg, _⟩, ⟨hvalid, _⟩, herr, hframe, hout, _⟩ := h
  have hneed : outNeeded w s = outNeeded w t := by
    unfold outNeeded
    cases decode w with
    | command i => cases i <;> simp only [outBytes, halg, hvalid]
    | reject why => rfl
  simp only [mustWait, roomFor, hneed, herr, hframe, hout]

/-- R392: while a word waits, the byte that another thread takes is the same. -/
theorem SameVisible.drainStep {s t : State} (h : SameVisible s t) : SameVisible (drainStep s) (drainStep t) := by
  obtain ⟨hctx, hreader, herr, hframe, hout, hhost, hseen, hdrain⟩ := id h
  cases hd : s.drain with
  | zero => simpa only [Machine.drainStep, ← hdrain, hd] using h
  | succ n =>
    cases ho : s.out with
    | nil => simpa only [Machine.drainStep, ← hdrain, hd, ← hout, ho] using h
    | cons b bs =>
      simp only [Machine.drainStep, ← hdrain, hd, ← hout, ho, ← hseen]
      exact ⟨hctx, hreader, herr, hframe, rfl, hhost, rfl, rfl⟩

/-- R73: the byte that a response-port read takes is the same. -/
theorem SameVisible.responseRead {s t : State} (h : SameVisible s t) :
    SameVisibleOutcome (responseRead s) (responseRead t) := by
  obtain ⟨hctx, hreader, herr, hframe, hout, hhost, hseen, hdrain⟩ := h
  cases ho : s.out with
  | nil => simp only [Machine.responseRead, ← hout, ho, SameVisibleOutcome]
  | cons b bs =>
    simp only [Machine.responseRead, ← hout, ho, ← hseen]
    exact ⟨hctx, hreader, herr, hframe, rfl, hhost, rfl, hdrain⟩

/-- R47: the status registers are copies of visible elements. -/
theorem SameVisible.statusAt_eq {s t : State} (h : SameVisible s t) (off : Nat) : statusAt off s = statusAt off t := by
  obtain ⟨⟨halg, hfill, hlen, _⟩, ⟨hvalid, hralg, hrate, hpos, _⟩, herr, hframe, _⟩ := h
  simp only [statusAt, statusReg, rdrStatusReg, lenLoReg, lenHiReg, errWordReg, frameReg, halg, hfill, hlen, hvalid,
    hralg, hrate, hpos, herr, hframe]

theorem SameVisible.statusRead {s t : State} (h : SameVisible s t) (off : Nat) :
    SameVisibleOutcome (statusRead off s) (statusRead off t) := by
  unfold Machine.statusRead
  rw [← h.statusAt_eq off]
  obtain ⟨hctx, hreader, herr, hframe, hout, hhost, hseen, hdrain⟩ := h
  cases statusAt off s with
  | none => rfl
  | some v => exact ⟨hctx, hreader, herr, hframe, hout, hhost, by simp only [hseen], hdrain⟩

theorem SameVisible.statusWrite {s t : State} (h : SameVisible s t) (off : Nat) :
    SameVisibleOutcome (statusWrite off s) (statusWrite off t) := by
  unfold Machine.statusWrite
  split
  · exact h
  · rfl

/-- Settles O56: by the host's next transaction, which is the same in both states. -/
theorem undefinedStorageIsNeverObserved : Obligations.UndefinedStorageIsNeverObserved := by
  intro s t h
  cases hs : s.host with
  | nil =>
    rw [step_idle s hs, step_idle t (h.host_eq ▸ hs)]
    exact h
  | cons op rest =>
    have ht : t.host = op :: rest := h.host_eq ▸ hs
    have hrest := h.withHost rest
    cases op with
    | write w =>
      rw [step_write s w rest hs, step_write t w rest ht, ← h.mustWait_eq]
      split
      · exact h.drainStep
      · exact hrest.takeWord w
    | readOut =>
      rw [step_readOut s rest hs, step_readOut t rest ht]
      exact hrest.responseRead
    | readStatus off =>
      rw [step_readStatus s off rest hs, step_readStatus t off rest ht]
      exact hrest.statusRead off
    | writeStatus off v =>
      rw [step_writeStatus s off v rest hs, step_writeStatus t off v rest ht]
      exact hrest.statusWrite off
    | reset together =>
      rw [step_reset s together rest hs, step_reset t together rest ht]
      exact hrest.hardwareReset

end Sys2Proof.Machine
end

section
/-! PROOFS. The response port (spec/20_memory.md R73), and the steps that stop (R73, R50, R56). -/

namespace Sys2Proof.Machine

/-- Settles O12: OUT is not touched by taking the read off the host's list, so its two shapes are the two cases of
`responseRead`. -/
theorem responseReadRemovesHead : Obligations.ResponseReadRemovesHead := by
  intro s rest hhost
  rw [step_readOut s rest hhost]
  exact ⟨fun b bs hout => by simp only [responseRead, hout], fun hout => by simp only [responseRead, hout]⟩

/-- R390: a step goes on, or it is one of the three transactions that the ports do not answer, and stops with that
port's reason. A command word always goes on, whether it is taken or waits. -/
theorem step_next_or_stops (s : State) :
    (∃ t, step s = .next t) ∨
    (∃ rest, s.host = .readOut :: rest ∧ s.out = [] ∧ step s = .fault .responseQueueEmpty) ∨
    (∃ off rest, s.host = .readStatus off :: rest ∧ ¬ (off < 32 ∧ off % 4 = 0) ∧
      step s = .refused .statusOutsideWindow) ∨
    (∃ off v rest, s.host = .writeStatus off v :: rest ∧ 32 ≤ off ∧ step s = .refused .statusOutsideWindow) := by
  cases hhost : s.host with
  | nil => exact .inl ⟨s, step_idle s hhost⟩
  | cons op rest =>
    cases op with
    | write w =>
      left
      rw [step_write s w rest hhost]
      split
      · exact ⟨_, rfl⟩
      · exact takeWord_next w _
    | readOut =>
      rw [step_readOut s rest hhost]
      obtain ⟨hout, hread⟩ | ⟨_, _, _, hread⟩ := responseRead_cases { s with host := rest }
      · exact .inr (.inl ⟨rest, rfl, hout, hread⟩)
      · exact .inl ⟨_, hread⟩
    | readStatus off =>
      rw [step_readStatus s off rest hhost]
      obtain ⟨_, _, _, _, hread⟩ | ⟨hoff, hread⟩ := statusRead_cases off { s with host := rest }
      · exact .inl ⟨_, hread⟩
      · exact .inr (.inr (.inl ⟨off, rest, rfl, hoff, hread⟩))
    | writeStatus off v =>
      rw [step_writeStatus s off v rest hhost]
      obtain ⟨_, hwrite⟩ | ⟨hoff, hwrite⟩ := statusWrite_cases off { s with host := rest }
      · exact .inl ⟨_, hwrite⟩
      · exact .inr (.inr (.inr ⟨off, v, rest, rfl, hoff, hwrite⟩))
    | reset together => exact .inl ⟨_, step_reset s together rest hhost⟩

/-- Settles O21: a step that stops is the one case of `step_next_or_stops` with that outcome; that those transactions
do stop is O12 on an empty OUT, and the second halves of O13 and O14. -/
theorem stepStopsOnlyWhereTheSpecStops : Obligations.StepStopsOnlyWhereTheSpecStops := by
  intro s
  refine ⟨⟨?fault_only, ?fault_if⟩, ⟨?refused_only, ?refused_if⟩⟩
  case fault_only =>
    rintro ⟨f, hstep⟩
    obtain ⟨_, h⟩ | ⟨rest, hhost, hout, _⟩ | ⟨_, _, _, _, h⟩ | ⟨_, _, _, _, _, h⟩ := step_next_or_stops s
    · cases h.symm.trans hstep
    · exact ⟨rest, hhost, hout⟩
    · cases h.symm.trans hstep
    · cases h.symm.trans hstep
  case fault_if =>
    rintro ⟨rest, hhost, hout⟩
    exact ⟨_, (responseReadRemovesHead s rest hhost).2 hout⟩
  case refused_only =>
    rintro ⟨r, hstep⟩
    obtain ⟨_, h⟩ | ⟨_, _, _, h⟩ | ⟨off, rest, hhost, hoff, _⟩ | ⟨off, v, rest, hhost, hoff, _⟩ := step_next_or_stops s
    · cases h.symm.trans hstep
    · cases h.symm.trans hstep
    · exact .inl ⟨off, rest, hhost, hoff⟩
    · exact .inr ⟨off, v, rest, hhost, hoff⟩
  case refused_if =>
    rintro (⟨off, rest, hhost, hoff⟩ | ⟨off, v, rest, hhost, hoff⟩)
    · exact ⟨_, (statusReadReturnsRegister s off rest hhost).2 (by omega)⟩
    · exact ⟨_, (statusWriteIsIgnored s off v rest hhost).2 hoff⟩

end Sys2Proof.Machine
end

section
/-! PROOFS. The encoding (spec/30_encoding.md R101 to R113): decode and encode, the checks on the word alone, and the
assembler's worked words. -/

namespace Sys2Proof

/-! ### Header words, field by field (R101) -/

/-- R101: a header word has one triple of fields. -/
theorem headerOf_inj {opc opc' arg arg' : BitVec 8} {n n' : BitVec 16} :
    headerOf opc arg n = headerOf opc' arg' n' ↔ opc = opc' ∧ arg = arg' ∧ n = n' := by
  constructor
  · intro h
    have hopc := congrArg opcField h
    have harg := congrArg argField h
    have hn := congrArg nField h
    simp only [opcField_headerOf, argField_headerOf, nField_headerOf] at hopc harg hn
    exact ⟨hopc, harg, hn⟩
  · rintro ⟨rfl, rfl, rfl⟩
    rfl

/-- A mask on a header word masks its fields. -/
theorem headerOf_and (opc opc' arg arg' : BitVec 8) (n n' : BitVec 16) :
    headerOf opc arg n &&& headerOf opc' arg' n' = headerOf (opc &&& opc') (arg &&& arg') (n &&& n') :=
  BitVec.and_append.trans (congrArg (· ++ (n &&& n')) BitVec.and_append)

/-- A word under a mask, as the masks on its fields. -/
theorem and_headerOf_eq_iff (w : Word) (opc opc' arg arg' : BitVec 8) (n n' : BitVec 16) :
    w &&& headerOf opc arg n = headerOf opc' arg' n' ↔
      opcField w &&& opc = opc' ∧ argField w &&& arg = arg' ∧ nField w &&& n = n' := by
  rw [← headerOf_inj, ← headerOf_and, headerOf_fields]

/-- A word has given fields. -/
theorem eq_headerOf_iff (w : Word) (opc arg : BitVec 8) (n : BitVec 16) :
    w = headerOf opc arg n ↔ opcField w = opc ∧ argField w = arg ∧ nField w = n := by
  rw [← headerOf_inj, headerOf_fields]

/-- A mask of ones over OPC and N leaves ARG out. -/
theorem mask_opc_n_eq_iff (w : Word) (opc : BitVec 8) :
    w &&& 0xFF00FFFF = headerOf opc 0 0 ↔ opcField w = opc ∧ nField w = 0 := by
  change w &&& headerOf (BitVec.allOnes 8) 0 (BitVec.allOnes 16) = _ ↔ _
  simp only [and_headerOf_eq_iff, BitVec.and_allOnes]
  simp

/-- A mask of ones over OPC and ARG leaves N out. -/
theorem mask_opc_arg_eq_iff (w : Word) (opc : BitVec 8) :
    w &&& 0xFFFF0000 = headerOf opc 0 0 ↔ opcField w = opc ∧ argField w = 0 := by
  change w &&& headerOf (BitVec.allOnes 8) (BitVec.allOnes 8) 0 = _ ↔ _
  simp only [and_headerOf_eq_iff, BitVec.and_allOnes]
  simp

/-- A mask of ones leaves nothing out. -/
theorem mask_all (w : Word) : w &&& 0xFFFFFFFF = w := BitVec.and_allOnes

/-! ### Decode and encode (R103, R105) -/

theorem decode_encode (i : Instr) : decode (encode i) = .command i := by
  cases i <;> simp [decode, encode]

/-- R103: a command is read only when the opcode is its own, its operand field holds its operand, and every reserved
field is 0. -/
theorem fields_of_decode_eq_command {w : Word} {i : Instr} (h : decode w = .command i) :
    opcField w = opcField (encode i) ∧ argField w = argField (encode i) ∧ nField w = nField (encode i) := by
  unfold decode at h
  split_ifs at h <;> cases h
  all_goals simp_all [encode]

/-- Settles O1: the decoder reads back the fields that encode writes, and a word is made of its fields. -/
theorem decodeInvertsEncode : Obligations.DecodeInvertsEncode := by
  refine ⟨decode_encode, fun w i h => ?_⟩
  obtain ⟨hopc, harg, hn⟩ := fields_of_decode_eq_command h
  rw [← headerOf_fields w, ← headerOf_fields (encode i), hopc, harg, hn]

theorem decode_eq_command_iff (w : Word) (i : Instr) : decode w = .command i ↔ w = encode i :=
  ⟨decodeInvertsEncode.2 w i, fun h => h ▸ decode_encode i⟩

/-- Settles O2: a row's match is its command's word with operand 0, and its mask leaves out the operand and no other
field, so the masked word is the match exactly when the word is the command's with some operand. -/
theorem decodeFollowsOpcodeTable : Obligations.DecodeFollowsOpcodeTable := by
  intro w
  simp only [decode_eq_command_iff, mask_all]
  refine ⟨?init, ?update, Iff.rfl, Iff.rfl, ?read⟩
  case init =>
    refine Iff.trans ?_ (mask_opc_n_eq_iff w 1).symm
    simp [encode, eq_headerOf_iff]
  case update =>
    refine Iff.trans ?_ (mask_opc_arg_eq_iff w 2).symm
    simp [encode, eq_headerOf_iff]
  case read =>
    refine Iff.trans ?_ (mask_opc_arg_eq_iff w 5).symm
    simp [encode, eq_headerOf_iff]

/-! ### Words that are no command (R108, R109) -/

/-- R109: a word is rejected for its opcode when no command has it. -/
theorem decode_of_illegalOpcode {w : Word} (h : (opcField w).toNat = 0 ∨ 6 ≤ (opcField w).toNat) :
    decode w = .reject .illegalOpcode := by
  have hne : ∀ opc : BitVec 8, 1 ≤ opc.toNat → opc.toNat ≤ 5 → opcField w ≠ opc := by
    rintro _ hge hle rfl
    omega
  simp [decode, hne]

/-- R108: a word is rejected for a field that its opcode reserves. -/
theorem decode_of_reservedNonzero {opc arg : BitVec 8} {n : BitVec 16}
    (h : (opc = 1 ∧ n ≠ 0) ∨ ((opc = 2 ∨ opc = 5) ∧ arg ≠ 0) ∨ ((opc = 3 ∨ opc = 4) ∧ (arg ≠ 0 ∨ n ≠ 0))) :
    decode (headerOf opc arg n) = .reject .reservedNonzero := by
  obtain ⟨rfl, hn⟩ | ⟨rfl | rfl, harg⟩ | ⟨rfl | rfl, harg | hn⟩ := h <;> simp_all [decode]

end Sys2Proof

namespace Sys2Proof.Machine

/-- R103: a word that is no command raises its error. -/
theorem headerWord_of_reject {w : Word} {why : Reject} (h : decode w = .reject why) (s : State) :
    headerWord w s = .next (raiseError (rejectCause why) w s) := by simp only [headerWord, h]

/-- R103: a word that is a command runs it. -/
theorem headerWord_of_command {w : Word} {i : Instr} (h : decode w = .command i) (s : State) :
    headerWord w s = exec i s := by simp only [headerWord, h]

/-- Settles O3: OPC is the word divided by 2^24. -/
theorem illegalOpcodesRaise : Obligations.IllegalOpcodesRaise := by
  have hraise (w : Word) (s : State) (h : w.toNat / 2 ^ 24 = 0 ∨ 6 ≤ w.toNat / 2 ^ 24) :
      headerWord w s = .next (raiseError .illegalOpcode w s) := by
    rw [← opcField_toNat] at h
    exact headerWord_of_reject (decode_of_illegalOpcode h) s
  exact ⟨hraise, fun s => hraise 0 s (.inl rfl)⟩

/-- Settles O4: the three ways a reserved field can be nonzero are those for which the decoder rejects the word. -/
theorem reservedFieldsRaise : Obligations.ReservedFieldsRaise :=
  fun _ _ _ s h => headerWord_of_reject (decode_of_reservedNonzero h) s

/-! ### Worked words (R105, R113) -/

/-- Settles O5: each word is the encoding of its command. -/
theorem decodeWorkedWords : Obligations.DecodeWorkedWords :=
  ⟨decode_encode (.init 1), decode_encode (.init 3), decode_encode (.init 6), decode_encode (.update 3),
    decode_encode (.update 65535), decode_encode .final, decode_encode .finalXof, decode_encode (.read 32)⟩

/-- Settles O6: the assembler evaluates to the words. -/
theorem assembleWorkedEncodings : Obligations.AssembleWorkedEncodings := by
  unfold Obligations.AssembleWorkedEncodings
  decide

/-! ### The step on a word (R102) -/

/-- Settles O7: an engine that is ready, with room for the output, makes no word wait and takes it as a header. -/
theorem stepRunsDecodedCommand : Obligations.StepRunsDecodedCommand := by
  rintro s w rest i hhost ⟨hhalt, hpend⟩ hdec hroom
  have hwait : mustWait Config.outDepth w s = false := by simp [mustWait, outNeeded, hdec, hroom]
  rw [step_write s w rest hhost, hwait]
  simp [takeWord, hhalt, hpend, headerWord_of_command hdec]

/-- Settles O8: a payload word never waits (R392), and is not looked at as a header. -/
theorem stepTakesPayloadWord : Obligations.StepTakesPayloadWord := by
  intro s w rest hhost hhalt hpend
  have hwait : mustWait Config.outDepth w s = false := by simp [mustWait, hpend]
  rw [step_write s w rest hhost, hwait]
  simp [takeWord, hhalt, hpend]

end Sys2Proof.Machine
end

section
/-! PROOFS. The operands of INIT, UPDATE and READ (spec/30_encoding.md R103, R106, R110) and the intake of payload words
(R104). -/

namespace Sys2Proof.Machine

/-! ### INIT -/

/-- R106: the code of an algorithm, zero-extended to ARG, selects it. -/
theorem algOfArg_code {a : Alg} (ha : a ≠ .none) : algOfArg (a.code.zeroExtend 8) = some a :=
  (algOfArg_eq_some_iff _ a).2 ⟨ha, rfl⟩

/-- R106: an ARG that is no code selects no algorithm. -/
theorem algOfArg_eq_none {arg : BitVec 8} (h : arg.toNat = 0 ∨ 8 ≤ arg.toNat) : algOfArg arg = none := by
  have hne : ∀ code : BitVec 8, 1 ≤ code.toNat → code.toNat ≤ 7 → arg ≠ code := by
    rintro _ hge hle rfl
    omega
  simp [algOfArg, hne]

/-- R301: INIT of an algorithm's code. -/
theorem exec_init_of_algOfArg {arg : BitVec 8} {a : Alg} (h : algOfArg arg = some a) (s : State) :
    exec (.init arg) s = .next (reinit { s with ctx := { s.ctx with alg := a } }) := by
  simp only [exec, execInit, h]

/-- Settles O23: `algOfArg` is the table of R106, and where it selects nothing INIT raises BAD_ALG. -/
theorem initArgSelectsOrRaises : Obligations.InitArgSelectsOrRaises := by
  refine ⟨fun s p hp => ?_, fun arg s h => ?_⟩
  · have hsel : algOfArg p.1 = some p.2 := by
      simp only [List.mem_cons, List.not_mem_nil, or_false] at hp
      obtain rfl | rfl | rfl | rfl | rfl | rfl | rfl := hp <;> rfl
    exact ⟨_, exec_init_of_algOfArg hsel s, rfl⟩
  · simp only [exec, execInit, algOfArg_eq_none h, encode]

/-! ### UPDATE and READ -/

/-- R305: the header of an UPDATE that its state accepts. -/
theorem exec_update_of_accepted {n : BitVec 16} {s : State} (halg : s.ctx.alg ≠ .none)
    (hlen : s.ctx.len.toNat + n.toNat ≤ lenMax s.ctx.alg.kind) :
    exec (.update n) s = .next (if n = 0 then s else openPayload n s) := by
  obtain ⟨hnone, _⟩ | ⟨_, hover, _⟩ | ⟨_, _, hn, hx⟩ | ⟨_, _, hn, hx⟩ := execUpdate_cases n s
  · exact absurd hnone halg
  · omega
  · rw [hx, if_pos hn]
  · rw [hx, if_neg hn]

/-- R320: READ with a reader. -/
theorem exec_read_of_valid {s : State} (hv : s.reader.valid = true) (n : BitVec 16) :
    exec (.read n) s = .next (readBody n.toNat s) := by
  simp only [exec, execRead, hv, if_true]

/-- Settles O24: the header is accepted, and with n > 0 what it leaves is `openPayload`. -/
theorem updateOpensPayload : Obligations.UpdateOpensPayload := by
  intro n s halg hlen hn
  rw [exec_update_of_accepted halg hlen, if_neg hn]
  rfl

/-- R320: reading no bytes has no effect. -/
@[simp] theorem readBody_zero (s : State) : readBody 0 s = s := by
  simp only [readBody, squeeze_zero, emit, List.append_nil]

/-- Settles O26: an accepted UPDATE of 0 opens no payload, and SQUEEZE of 0 bytes emits none and keeps the reader. -/
theorem emptyUpdateAndReadHaveNoEffect : Obligations.EmptyUpdateAndReadHaveNoEffect := by
  intro s
  refine ⟨fun halg hlen => ?_, fun hv => ?_, fun hnone => ?_, fun hv => ?_⟩
  · rw [exec_update_of_accepted halg (by simpa using hlen), if_pos rfl]
  · rw [exec_read_of_valid hv]
    exact congrArg _ (readBody_zero s)
  · simp only [exec, execUpdate, hnone, if_true]
    rfl
  · simp only [exec, execRead, hv, Bool.false_eq_true, if_false]
    rfl

/-! ### Payload words -/

/-- R104: the bytes that a payload word carries are the leading ones of its four. -/
theorem payloadBytes_eq_take (prem : BitVec 16) (w : Word) : payloadBytes prem w = (bytesLE 4 w).take prem.toNat := by
  rw [payloadBytes, bytesLE, ← List.map_take, List.take_range, Nat.min_comm]

/-- Settles O27: PREM less min(4, PREM) is 0 exactly when PREM is at most 4, and UPDATE_BODY does not read the frame
state. -/
theorem payloadWordFeedsDecoder : Obligations.PayloadWordFeedsDecoder := by
  intro w s _ hprem
  have hsub := toNat_sub_payload s.frame.prem
  obtain ⟨hlast, hword⟩ | ⟨hmore, hword⟩ := payloadWord_cases w s
  · rw [hlast] at hsub
    refine ⟨fun _ => ⟨_, rfl, ?_⟩, fun hgt => ?_⟩
    · rw [hword, payloadBytes_eq_take]
      rfl
    · simp at hsub
      omega
  · have hpos : (s.frame.prem - BitVec.ofNat 16 (min 4 s.frame.prem.toNat)).toNat ≠ 0 :=
      fun h0 => hmore (BitVec.eq_of_toNat_eq h0)
    refine ⟨fun hle => by omega, fun hgt => ?_⟩
    have hrem : s.frame.prem - BitVec.ofNat 16 (min 4 s.frame.prem.toNat) =
        BitVec.ofNat 16 (s.frame.prem.toNat - 4) := by
      apply BitVec.eq_of_toNat_eq
      rw [hsub, BitVec.toNat_ofNat]
      omega
    rw [hword, hrem, payloadBytes_eq_take, List.take_of_length_le (by simp; omega)]

end Sys2Proof.Machine
end

section
/-! PROOFS. A message in the block buffer (spec/40_block_buffer.md R140 to R150): how a string is cut into blocks, what
`process` and UPDATE_BODY have done after the bytes of a message, and the paddings as the end of the padded message. -/

namespace Sys2Proof.Machine

/-! ### Cutting a string into blocks -/

theorem restOf_length (cap : Nat) (m : List Byte) : (restOf cap m).length = m.length % cap := by
  have hm := Nat.div_add_mod m.length cap
  rw [restOf, List.length_drop]
  omega

/-- Past the whole blocks of a string come its rest and what is appended. -/
theorem drop_whole_blocks_append (cap : Nat) (m e : List Byte) :
    (m ++ e).drop (cap * (m.length / cap)) = restOf cap m ++ e :=
  List.drop_append_of_le_length (Nat.mul_div_le m.length cap)

theorem length_append_div {cap : Nat} (hcap : 0 < cap) (m e : List Byte) :
    (m ++ e).length / cap = m.length / cap + (restOf cap m ++ e).length / cap := by
  rw [← Nat.mul_add_div hcap, List.length_append, List.length_append, restOf_length, ← Nat.add_assoc,
    Nat.div_add_mod]

/-- The blocks of a string stay blocks when more is appended, and the others begin with its rest. -/
theorem blocksOf_append {cap : Nat} (hcap : 0 < cap) (m e : List Byte) :
    blocksOf cap (m ++ e) = blocksOf cap m ++ blocksOf cap (restOf cap m ++ e) := by
  rw [blocksOf, length_append_div hcap, List.range_add, List.map_append, List.map_map]
  congr 1
  · refine List.map_congr_left fun i hi => ?_
    have hlast : cap * i + cap ≤ cap * (m.length / cap) := Nat.mul_le_mul_left cap (List.mem_range.1 hi)
    have hwhole := Nat.mul_div_le m.length cap
    rw [List.drop_append_of_le_length (by omega), List.take_append_of_le_length (by rw [List.length_drop]; omega)]
  · refine List.map_congr_left fun i _ => ?_
    rw [Function.comp_apply, ← drop_whole_blocks_append, List.drop_drop, Nat.mul_add]

theorem restOf_append {cap : Nat} (hcap : 0 < cap) (m e : List Byte) :
    restOf cap (m ++ e) = restOf cap (restOf cap m ++ e) := by
  rw [restOf, length_append_div hcap, Nat.mul_add, ← List.drop_drop, drop_whole_blocks_append]
  rfl

/-- A string shorter than a block has no block and is its own rest. -/
theorem blocksOf_of_lt {cap : Nat} {m : List Byte} (h : m.length < cap) : blocksOf cap m = [] := by
  simp [blocksOf, Nat.div_eq_of_lt h]

theorem restOf_of_lt {cap : Nat} {m : List Byte} (h : m.length < cap) : restOf cap m = m := by
  simp [restOf, Nat.div_eq_of_lt h]

/-- A string as long as a block is one block. -/
theorem blocksOf_of_length_eq {cap : Nat} (hcap : 0 < cap) {m : List Byte} (h : m.length = cap) :
    blocksOf cap m = [m] := by
  simp [blocksOf, h, Nat.div_self hcap, List.take_of_length_le h.le]

theorem restOf_of_length_eq {cap : Nat} (hcap : 0 < cap) {m : List Byte} (h : m.length = cap) :
    restOf cap m = [] := by
  rw [restOf, h, Nat.div_self hcap, Nat.mul_one, List.drop_of_length_le h.le]

/-- The first q blocks, joined, are the first cap · q bytes. -/
theorem flatten_blocks_eq_take (cap q : Nat) (m : List Byte) :
    ((List.range q).map fun i => (m.drop (cap * i)).take cap).flatten = m.take (cap * q) := by
  induction q with
  | zero => simp
  | succ q ih => simp [List.range_succ, ih, Nat.mul_succ, List.take_add]

/-- The blocks and the rest, joined, are the string. -/
theorem flatten_blocksOf_restOf (cap : Nat) (m : List Byte) : (blocksOf cap m ++ [restOf cap m]).flatten = m := by
  rw [List.flatten_append, blocksOf, flatten_blocks_eq_take, restOf, List.flatten_singleton, List.take_append_drop]

/-! ### The context that stands at a message (R143, R144) -/

/-- R143, R144: `c` is what `c0`, at the start of a message, becomes by the bytes `m`: the whole blocks of `m` have gone
to BLOCK and the rest is in BUF. LEN, and BUF at FILL and above, are left open. -/
def StandsAt (c0 : Context) (m : List Byte) (c : Context) : Prop :=
  c.alg = c0.alg ∧ c.fill.toNat = m.length % c0.alg.cap ∧ bufHead c c.fill.toNat = restOf c0.alg.cap m ∧
  c.h = ((blocksOf c0.alg.cap m).foldl block c0).h ∧ c.s = ((blocksOf c0.alg.cap m).foldl block c0).s

theorem standsAt_nil {c0 : Context} (hfill : c0.fill = 0) : StandsAt c0 [] c0 := by
  simp [StandsAt, hfill, bufHead, blocksOf, restOf]

/-- R141: what BLOCK leaves in H and S depends on ALG, H and S. -/
theorem block_congr {c d : Context} (halg : c.alg = d.alg) (hh : c.h = d.h) (hs : c.s = d.s) (b : List Byte) :
    (block c b).h = (block d b).h ∧ (block c b).s = (block d b).s := by
  by_cases hk : c.alg.kind = .md
  · rw [block_md c b hk, block_md d b (halg ▸ hk)]
    exact ⟨by simp only [hh], hs⟩
  · rw [block_sponge c b hk, block_sponge d b (halg ▸ hk)]
    exact ⟨hh, by simp only [hs, halg]⟩

/-- R143: the context with a byte written at FILL and FILL one more. -/
def pushByte (c : Context) (d : Byte) : Context :=
  { c with buf := c.buf.setIfInBounds c.fill.toNat d, fill := c.fill + 1 }

theorem processByte_eq (c : Context) (d : Byte) :
    processByte c d =
      if (pushByte c d).fill.toNat = c.alg.cap then emptyFull (pushByte c d) else pushByte c d := rfl

theorem pushByte_fill {c : Context} (h : c.fill.toNat < 168) (d : Byte) :
    (pushByte c d).fill.toNat = c.fill.toNat + 1 := by
  rw [pushByte, BitVec.toNat_add]
  simp
  omega

/-- R143: the byte extends the bytes below FILL. -/
theorem bufHead_pushByte {c : Context} (h : c.fill.toNat < 168) (d : Byte) :
    bufHead (pushByte c d) (pushByte c d).fill.toNat = bufHead c c.fill.toNat ++ [d] := by
  rw [pushByte_fill h]
  simp [bufHead, pushByte, List.take_succ_eq_append_getElem, h, List.take_set_of_le]

/-- R143, R144: one byte more of the message. -/
theorem StandsAt.processByte {c0 c : Context} {m : List Byte} (h : StandsAt c0 m c) (halg : c0.alg ≠ .none) (d : Byte) :
    StandsAt c0 (m ++ [d]) (processByte c d) := by
  obtain ⟨hca, hfill, hbuf, hh, hs⟩ := h
  have hcap := cap_pos _ halg
  have hlt : c.fill.toNat < c0.alg.cap := hfill ▸ Nat.mod_lt m.length hcap
  have hroom : c.fill.toNat < 168 := hlt.trans_le (cap_le c0.alg)
  have hpush := bufHead_pushByte hroom d
  have hlen : (restOf c0.alg.cap m ++ [d]).length = (pushByte c d).fill.toNat := by
    simp [restOf_length, pushByte_fill hroom, hfill]
  have hmod : (m ++ [d]).length % c0.alg.cap = (restOf c0.alg.cap m ++ [d]).length % c0.alg.cap := by
    simp [restOf_length]
  rw [hbuf] at hpush
  rw [StandsAt, blocksOf_append hcap, restOf_append hcap, hmod, hlen, processByte_eq, hca]
  split
  next hfull =>
    rw [hfull] at hlen hpush
    have halg' : (pushByte c d).alg = c0.alg := hca
    have hblock := block_congr (c := pushByte c d) (hca.trans (foldl_block_alg _ _).symm) hh hs
      (restOf c0.alg.cap m ++ [d])
    rw [blocksOf_of_length_eq hcap hlen, restOf_of_length_eq hcap hlen, hfull, Nat.mod_self, List.foldl_append]
    unfold emptyFull
    rw [halg', hpush]
    exact ⟨(block_alg _ _).trans halg', rfl, rfl, hblock.1, hblock.2⟩
  next hpart =>
    have hshort : (pushByte c d).fill.toNat < c0.alg.cap := by rw [pushByte_fill hroom] at hpart ⊢; omega
    rw [blocksOf_of_lt (hlen.trans_lt hshort), restOf_of_lt (hlen.trans_lt hshort), List.append_nil,
      Nat.mod_eq_of_lt hshort]
    exact ⟨hca, rfl, hpush, hh, hs⟩

/-- R143, R144: `process` of more bytes of the message. -/
theorem StandsAt.process {c0 c : Context} {m : List Byte} (h : StandsAt c0 m c) (halg : c0.alg ≠ .none)
    (ds : List Byte) : StandsAt c0 (m ++ ds) (process ds c) := by
  induction ds generalizing m c with
  | nil => simpa using h
  | cons d ds ih => simpa using ih (h.processByte halg d)

/-! ### UPDATE_BODY, chunk after chunk (R306) -/

/-- R33: the bytes at FILL and above are no part of where a context stands. -/
theorem StandsAt.forgetStale {c0 : Context} {s : State} {m : List Byte} (h : StandsAt c0 m s.ctx) :
    StandsAt c0 m (forgetStale s).ctx := by
  obtain ⟨halg, hfill, hbuf, hh, hs⟩ := h
  exact ⟨halg, hfill, (forgetStale_bufHead s).trans hbuf, hh, hs⟩

theorem StandsAt.updateBody {c0 : Context} {s : State} {m : List Byte} (h : StandsAt c0 m s.ctx)
    (halg : c0.alg ≠ .none) (data : List Byte) : StandsAt c0 (m ++ data) (updateBody data s).ctx :=
  (StandsAt.process (c := { s.ctx with len := s.ctx.len + BitVec.ofNat 64 data.length }) h halg data).forgetStale

@[simp] theorem feed_nil (s : State) : feed [] s = s := rfl

theorem feed_cons (m : List Byte) (ms : List (List Byte)) (s : State) :
    feed (m :: ms) s = feed ms (feed [m] s) := rfl

theorem feed_singleton (m : List Byte) (s : State) : feed [m] s = if m = [] then s else updateBody m s := rfl

/-- R307: the chunks of a message leave the context standing at the whole of it, however it is cut. -/
theorem StandsAt.feed {c0 : Context} {s : State} {m : List Byte} (h : StandsAt c0 m s.ctx) (halg : c0.alg ≠ .none)
    (ms : List (List Byte)) : StandsAt c0 (m ++ ms.flatten) (feed ms s).ctx := by
  induction ms generalizing m s with
  | nil => simpa using h
  | cons chunk ms ih =>
    rw [feed_cons, List.flatten_cons, ← List.append_assoc]
    have hchunk : StandsAt c0 (m ++ chunk) (Machine.feed [chunk] s).ctx := by
      rw [feed_singleton]
      split
      next hnil => simpa [hnil] using h
      next => exact h.updateBody halg chunk
    exact ih hchunk

end Sys2Proof.Machine
end

section
/-! PROOFS. A finalize after the bytes of a message: the paddings hand BLOCK the rest of the padded message (R145, R147,
R150), and the digest is the hash of the message (R202, R263). -/

namespace Sys2Proof.Machine

/-! ### The blocks that end a message -/

/-- R145, R201: the length padding is a whole number of 64-byte blocks, which end the padded message. -/
theorem blocksOf_length_padding {pre : List Byte} (hpre : pre.length < 64) (bitlen : BitVec 64) :
    blocksOf 64 (pre ++ ([0x80] ++ zeros ((119 - pre.length) % 64) ++ bytesLE 8 bitlen)) =
      lengthPadBlocks 64 pre bitlen := by
  unfold lengthPadBlocks
  dsimp only
  split
  next htwo =>
    have hzeros : zeros ((119 - pre.length) % 64) = zeros (64 - pre.length - 1) ++ zeros (64 - 8) := by
      rw [zeros, zeros, zeros, List.replicate_append_replicate]
      congr 1
      omega
    have hfirst : (pre ++ [0x80] ++ zeros (64 - pre.length - 1)).length = 64 := by simp; omega
    have hsecond : (zeros (64 - 8) ++ bytesLE 8 bitlen).length = 64 := by simp
    have hsplit : pre ++ ([0x80] ++ zeros ((119 - pre.length) % 64) ++ bytesLE 8 bitlen) =
        (pre ++ [0x80] ++ zeros (64 - pre.length - 1)) ++ (zeros (64 - 8) ++ bytesLE 8 bitlen) := by
      simp only [hzeros, List.append_assoc]
    rw [hsplit, blocksOf_append (by decide), blocksOf_of_length_eq (by decide) hfirst,
      restOf_of_length_eq (by decide) hfirst, List.nil_append, blocksOf_of_length_eq (by decide) hsecond]
    rfl
  next hone =>
    have hzeros : (zeros (64 - pre.length - 1)).take (64 - 8 - (pre.length + 1)) = zeros ((119 - pre.length) % 64) := by
      rw [zeros, zeros, List.take_replicate]
      congr 1
      omega
    have hblock : pre ++ ([0x80] ++ zeros ((119 - pre.length) % 64) ++ bytesLE 8 bitlen) =
        (pre ++ [0x80] ++ zeros (64 - pre.length - 1)).take (64 - 8) ++ bytesLE 8 bitlen := by
      rw [List.take_append, List.take_of_length_le (by simp; omega)]
      simp only [List.length_append, List.length_singleton, hzeros, List.append_assoc]
    rw [hblock, blocksOf_of_length_eq (by decide) (by simp; omega)]

theorem blocksOf_mdPadded (m : List Byte) :
    blocksOf 64 (mdPadded m) =
      blocksOf 64 m ++ lengthPadBlocks 64 (restOf 64 m) (BitVec.ofNat 64 (8 * m.length)) := by
  have hrest := restOf_length 64 m
  have hlt : (restOf 64 m).length < 64 := hrest ▸ Nat.mod_lt _ (by decide)
  rw [← blocksOf_length_padding hlt, hrest, ← blocksOf_append (by decide)]
  simp only [mdPadded, List.append_assoc]

/-- R147, R149: the sponge padding completes one block: PAD, zeros and 0x80, or both in one byte. -/
theorem padWithBlock_eq {cap : Nat} (pad : Byte) {pre : List Byte} (hpre : pre.length < cap) :
    padWithBlock cap pad pre =
      pre ++ (if cap - pre.length = 1 then [pad ||| 0x80] else [pad] ++ zeros (cap - pre.length - 2) ++ [0x80]) := by
  unfold padWithBlock
  dsimp only
  split
  next hone =>
    have hlast : cap - 1 = pre.length := by omega
    simp [hone, hlast, zeros]
  next hmore =>
    have hzeros : zeros (cap - pre.length - 1) = zeros (cap - pre.length - 2) ++ [0] := by
      rw [zeros, zeros, ← List.replicate_succ']
      congr 1
      omega
    have hlast : cap - 1 = (pre ++ [pad] ++ zeros (cap - pre.length - 2)).length := by simp; omega
    rw [hzeros, ← List.append_assoc, hlast]
    simp

theorem blocksOf_spongePadded {cap : Nat} (hcap : 0 < cap) (pad : Byte) (m : List Byte) :
    blocksOf cap (spongePadded cap pad m) = blocksOf cap m ++ [padWithBlock cap pad (restOf cap m)] := by
  have hrest := restOf_length cap m
  have hlt : (restOf cap m).length < cap := hrest ▸ Nat.mod_lt _ hcap
  have hblock := padWithBlock_eq pad hlt
  have hlen : (padWithBlock cap pad (restOf cap m)).length = cap := by
    simp [padWithBlock]
    omega
  have happend : spongePadded cap pad m =
      m ++ (if cap - m.length % cap = 1 then [pad ||| 0x80]
        else [pad] ++ zeros (cap - m.length % cap - 2) ++ [0x80]) := by
    unfold spongePadded
    split <;> simp only [List.append_assoc]
  rw [happend, blocksOf_append hcap, ← hrest, ← hblock, blocksOf_of_length_eq hcap hlen]

/-! ### BLOCK over several blocks -/

theorem foldl_block_h {c : Context} (h : c.alg.kind = .md) (bs : List (List Byte)) :
    (bs.foldl block c).h = bs.foldl rmdCompress c.h := by
  induction bs generalizing c with
  | nil => rfl
  | cons b bs ih =>
    rw [List.foldl_cons, List.foldl_cons, ih (by simpa using h), block_md c b h]

theorem foldl_block_s {c : Context} (h : c.alg.kind ≠ .md) (bs : List (List Byte)) :
    (bs.foldl block c).s = bs.foldl (absorb c.alg.cap) c.s := by
  induction bs generalizing c with
  | nil => rfl
  | cons b bs ih =>
    rw [List.foldl_cons, List.foldl_cons, ih (by simpa using h), block_sponge c b h]

/-! ### The padding of a context that stands at a message -/

/-- R201, R311: under RIPEMD-160 the padded context holds the chaining words of the message. -/
theorem StandsAt.finalPad_h {c0 c : Context} {m : List Byte} (h : StandsAt c0 m c) (hmd : c0.alg.kind = .md)
    (hlen : c.len = BitVec.ofNat 64 m.length) :
    (finalPad c).h = (blocksOf 64 (mdPadded m)).foldl rmdCompress c0.h := by
  obtain ⟨halg, hfill, hbuf, hh, _⟩ := h
  have hcap : c0.alg.cap = 64 := by rw [(kind_eq_md_iff c0.alg).1 hmd]; rfl
  have hbits : bitLength c = BitVec.ofNat 64 (8 * m.length) := by
    apply BitVec.eq_of_toNat_eq
    simp only [bitLength, hlen, BitVec.toNat_ofNat]
    omega
  have hlt : c.fill.toNat < c.alg.cap := by
    rw [hfill, halg]
    exact Nat.mod_lt _ (by omega)
  rw [foldl_block_h hmd] at hh
  rw [finalPad, if_pos (halg ▸ hmd), lengthPad, emptyIfFull_of_lt c hlt]
  dsimp only
  rw [foldl_block_h (halg ▸ hmd), hh, halg, hbuf, hbits, hcap, blocksOf_mdPadded, List.foldl_append]

/-- R263, R264: under a sponge the padded context holds the state of the message. -/
theorem StandsAt.finalPad_s {c0 c : Context} {m : List Byte} (h : StandsAt c0 m c) (halg0 : c0.alg ≠ .none)
    (hsponge : c0.alg.kind ≠ .md) :
    (finalPad c).s = (blocksOf c0.alg.cap (spongePadded c0.alg.cap c0.alg.pad m)).foldl (absorb c0.alg.cap) c0.s := by
  obtain ⟨halg, hfill, hbuf, _, hs⟩ := h
  have hcap := cap_pos _ halg0
  have hlt : c.fill.toNat < c.alg.cap := by
    rw [hfill, halg]
    exact Nat.mod_lt _ hcap
  rw [foldl_block_s hsponge] at hs
  rw [finalPad, if_neg (halg ▸ hsponge), padWith, emptyIfFull_of_lt c hlt]
  dsimp only
  rw [block_sponge _ _ (halg ▸ hsponge), blocksOf_spongePadded hcap, List.foldl_append, ← hs, halg, hbuf]
  rfl

/-! ### The digest -/

/-- R39: the leading bytes of the byte view, one by one. -/
theorem map_stateByte_range (S : Lanes) {n : Nat} (hn : n ≤ 200) :
    (List.range n).map (stateByte S) = (stateBytes S).take n := by
  obtain ⟨hlen, hbyte⟩ := stateByteView S
  apply List.ext_getElem?
  intro j
  by_cases hj : j < n
  · rw [List.getElem?_take_of_lt hj, (hbyte j (by omega)).1]
    simp [hj]
  · simp [hj]

/-- R202, R263, R310: FINAL's digest, from a fresh context and the bytes of the message, is the hash of the message. -/
theorem StandsAt.digestOf_finalPad {a : Alg} {c0 c : Context} {m : List Byte} (hfresh : FreshContext a c0)
    (h : StandsAt c0 m c) (hkind : a.kind = .md ∨ a.kind = .fixed) (hlen : c.len = BitVec.ofNat 64 m.length) :
    digestOf (finalPad c) = hashOf a m := by
  obtain ⟨rfl, _, _, hiv, hzero⟩ := hfresh
  have halg : c.alg = c0.alg := h.1
  rw [digestOf, hashOf, finalPad_alg, halg]
  split
  next hmd => rw [h.finalPad_h hmd hlen, hiv, chainOf]
  next hsponge =>
    have hconf : c0.alg ≠ .none := fun hnone => by simp [hnone, Alg.kind] at hkind
    have hout : c0.alg.outLen ≤ 200 := (outLen_le c0.alg).trans (by decide)
    rw [h.finalPad_s hconf hsponge, hzero, map_stateByte_range _ hout, spongeOf]

end Sys2Proof.Machine
end

section
/-! PROOFS. The reader's output stream (spec/43_sponge.md R266, R267, R268). -/

namespace Sys2Proof.Machine

/-- R268: reading n and then m bytes is reading n + m. -/
theorem squeeze_add (n m : Nat) (r : Reader) :
    squeeze (n + m) r = ((squeeze n r).1 ++ (squeeze m (squeeze n r).2).1, (squeeze m (squeeze n r).2).2) := by
  induction n generalizing r with
  | zero => simp
  | succ n ih => rw [Nat.succ_add, squeeze_succ, squeeze_succ, ih]; rfl

/-- R267: `r` stands k bytes into the stream of a reader of state `rs0`: q permutations and POS bytes of the window. At
the end of a window no permutation has been made yet (R262). -/
def StreamAt (rs0 : Lanes) (k : Nat) (r : Reader) : Prop :=
  ∃ q, r.rs = Nat.iterate keccakF q rs0 ∧ k = r.rate.toNat * q + r.pos.toNat ∧ r.pos.toNat ≤ r.rate.toNat

theorem streamAt_zero {r : Reader} (hpos : r.pos = 0) : StreamAt r.rs 0 r := ⟨0, rfl, by simp [hpos], by simp [hpos]⟩

/-- R266: a refill stands at the same byte, with a byte of the window left. -/
theorem StreamAt.refill {rs0 : Lanes} {k : Nat} {r : Reader} (h : StreamAt rs0 k r) (hrate : 0 < r.rate.toNat) :
    StreamAt rs0 k (refill r) ∧ (refill r).pos.toNat < r.rate.toNat := by
  obtain ⟨q, hrs, hk, hpos⟩ := h
  unfold Machine.refill
  split
  next hend =>
    have hk' : k = r.rate.toNat * (q + 1) := by rw [hk, hend, Nat.mul_succ]
    exact ⟨⟨q + 1, by simp only [hrs, Function.iterate_succ_apply'], hk', Nat.zero_le _⟩, hrate⟩
  next hmid => exact ⟨⟨q, hrs, hk, hpos⟩, lt_of_le_of_ne hpos fun he => hmid (BitVec.eq_of_toNat_eq he)⟩

/-- R266, R267: the next byte is byte k of the stream. -/
theorem StreamAt.squeezeByte {rs0 : Lanes} {k : Nat} {r : Reader} (h : StreamAt rs0 k r) (hrate : 0 < r.rate.toNat) :
    (squeezeByte r).1 = streamByte rs0 r.rate.toNat k ∧ StreamAt rs0 (k + 1) (squeezeByte r).2 := by
  obtain ⟨⟨q, hrs, hk, _⟩, hlt⟩ := h.refill hrate
  rw [refill_rate] at hk
  have hdiv : k / r.rate.toNat = q := by rw [hk, Nat.mul_add_div hrate, Nat.div_eq_of_lt hlt, Nat.add_zero]
  have hmod : k % r.rate.toNat = (Machine.refill r).pos.toNat := by rw [hk, Nat.mul_add_mod, Nat.mod_eq_of_lt hlt]
  have hsucc : ((Machine.refill r).pos + 1).toNat = (Machine.refill r).pos.toNat + 1 := by
    have := r.rate.isLt
    rw [BitVec.toNat_add]
    simp
    omega
  refine ⟨?_, q, hrs, ?_, ?_⟩
  · rw [streamByte, hdiv, hmod, ← hrs]
    rfl
  · simp only [Machine.squeezeByte, hsucc, refill_rate]
    omega
  · simp only [Machine.squeezeByte, hsucc, refill_rate]
    omega

/-- R267: the next n bytes are those of the stream from byte k on. -/
theorem StreamAt.squeeze {rs0 : Lanes} {k : Nat} {r : Reader} (h : StreamAt rs0 k r) (hrate : 0 < r.rate.toNat)
    (n : Nat) :
    (squeeze n r).1 = (List.range' k n).map (streamByte rs0 r.rate.toNat) ∧ StreamAt rs0 (k + n) (squeeze n r).2 := by
  induction n generalizing k r with
  | zero => exact ⟨rfl, h⟩
  | succ n ih =>
    obtain ⟨hbyte, hnext⟩ := h.squeezeByte hrate
    obtain ⟨hbytes, hlast⟩ := ih hnext (by simpa using hrate)
    rw [squeezeByte_rate] at hbytes
    rw [squeeze_succ, hbyte, hbytes, List.range'_succ, List.map_cons]
    exact ⟨rfl, (Nat.add_right_comm k 1 n : k + 1 + n = k + n + 1) ▸ hlast⟩

/-- R267: all that is read from a fresh reader. -/
theorem squeeze_of_fresh {r : Reader} (hpos : r.pos = 0) (hrate : 0 < r.rate.toNat) (n : Nat) :
    (squeeze n r).1 = (List.range n).map (streamByte r.rs r.rate.toNat) := by
  rw [((streamAt_zero hpos).squeeze hrate n).1, List.range_eq_range']

/-- R320: reading n and then m bytes is reading n + m. -/
theorem readBody_readBody (n m : Nat) (s : State) : readBody m (readBody n s) = readBody (n + m) s := by
  simp only [readBody, emit, squeeze_add, List.append_assoc]

/-- R264, R267, R315: the reader that FINAL_XOF makes of a fresh context and the bytes of a message gives the output
stream of the message. -/
theorem StandsAt.squeeze_newReader {a : Alg} {c0 c : Context} {m : List Byte} (hfresh : FreshContext a c0)
    (h : StandsAt c0 m c) (hkind : a.kind = .xof) (n : Nat) :
    (squeeze n (newReader (finalPad c))).1 = xofOf a m n := by
  obtain ⟨rfl, _, _, _, hzero⟩ := hfresh
  have halg : c.alg = c0.alg := h.1
  have hconf : c0.alg ≠ .none := fun hnone => by simp [hnone, Alg.kind] at hkind
  have hrate : (newReader (finalPad c)).rate.toNat = c0.alg.cap := by
    have hcap := cap_le c0.alg
    simp only [newReader, finalPad_alg, halg, BitVec.toNat_ofNat]
    omega
  have hrs : (newReader (finalPad c)).rs = spongeOf c0.alg m := by
    rw [newReader, h.finalPad_s hconf (by simp [hkind]), hzero, spongeOf]
  rw [squeeze_of_fresh rfl (hrate ▸ cap_pos _ hconf), hrate, hrs, xofOf]

end Sys2Proof.Machine
end

section
/-! PROOFS. Programs (spec/30_encoding.md R112): what the engine does with the words of a command stream that a host
writes one after another, from a single word up to HASH and XOF. -/

namespace Sys2Proof.Machine

/-! ### Runs of written words -/

/-- After a run that answers a state, more steps go on from it. -/
theorem run_add (M : Host.Core) {j : Nat} {s t : M.State} (h : M.run j s = .next t) (k : Nat) :
    M.run (j + k) s = M.run k t := by
  induction j generalizing s with
  | zero =>
    cases h
    rw [Nat.zero_add]
  | succ j ih =>
    rw [Nat.succ_add]
    simp only [Host.Core.run] at h ⊢
    cases hstep : M.step s with
    | next u =>
      rw [hstep] at h
      exact ih h
    | fault r => simp [hstep] at h
    | refused r => simp [hstep] at h

theorem run_one (M : Host.Core) (s : M.State) : M.run 1 s = M.step s := by
  simp only [Host.Core.run]
  cases M.step s <;> rfl

/-- Writing the words `ws`, a step a word, takes the engine from `s` to `t`, whatever the host does afterwards. Of the
two states the host's list is left out. -/
def Writes (ws : List Word) (s t : State) : Prop :=
  ∀ rest, Host.Core.run core ws.length { s with host := ws.map .write ++ rest } = .next { t with host := rest }

theorem Writes.nil (s : State) : Writes [] s s := fun _ => rfl

theorem Writes.append {ws vs : List Word} {s t u : State} (h : Writes ws s t) (h' : Writes vs t u) :
    Writes (ws ++ vs) s u := by
  intro rest
  rw [List.length_append, List.map_append, List.append_assoc]
  exact (run_add core (h (vs.map .write ++ rest)) vs.length).trans (h' rest)

/-- One word is one step. -/
theorem writes_singleton {w : Word} {s t : State}
    (h : ∀ rest, step { s with host := .write w :: rest } = .next { t with host := rest }) : Writes [w] s t :=
  fun rest => (run_one core { s with host := .write w :: rest }).trans (h rest)

/-! ### One word: a command's header, or a payload word -/

/-- The meaning of a command does not look at the host's list. -/
theorem exec_withHost {i : Instr} {s t : State} (h : exec i s = .next t) (l : List HostOp) :
    exec i { s with host := l } = .next { t with host := l } := by
  cases i with
  | init arg =>
    simp only [exec, execInit] at h ⊢
    cases hsel : algOfArg arg <;> rw [hsel] at h <;> cases h <;> rfl
  | update n =>
    simp only [exec, execUpdate] at h ⊢
    split_ifs at h ⊢ <;> cases h <;> rfl
  | final =>
    simp only [exec, execFinal] at h ⊢
    split_ifs at h ⊢ <;> cases h <;> rfl
  | finalXof =>
    simp only [exec, execFinalXof] at h ⊢
    split_ifs at h ⊢ <;> cases h <;> rfl
  | read n =>
    simp only [exec, execRead] at h ⊢
    split_ifs at h ⊢ <;> cases h <;> rfl

/-- R102, R103: the header word of a command, on an engine that is ready and has room for the output. -/
theorem writes_command {i : Instr} {s t : State} (hready : Ready s)
    (hroom : s.out.length + outBytes i s ≤ 65535) (h : exec i s = .next t) : Writes [encode i] s t :=
  writes_singleton fun rest =>
    (stepRunsDecodedCommand { s with host := .write (encode i) :: rest } (encode i) rest i rfl hready (decode_encode i)
      (roomFor_of_le _ _ _ hroom)).trans (exec_withHost h rest)

/-- R104: nor does the intake of a payload word. -/
theorem payloadWord_withHost (w : Word) (s : State) (l : List HostOp) :
    payloadWord w { s with host := l } = { payloadWord w s with host := l } := by
  simp only [payloadWord]
  split <;> rfl

theorem writes_payloadWord {s : State} (hhalt : s.err.halt = false) (hpend : s.frame.pend = true) (w : Word) :
    Writes [w] s (payloadWord w s) :=
  writes_singleton fun rest =>
    (stepTakesPayloadWord { s with host := .write w :: rest } w rest rfl hhalt hpend).trans
      (congrArg _ (payloadWord_withHost w s rest))

/-! ### The payload of an UPDATE (R104, R112) -/

/-- R14, R70: LE32 and the little-endian bytes are inverse. -/
theorem bytesLE_le32 (b0 b1 b2 b3 : Byte) : bytesLE 4 (le32 b0 b1 b2 b3) = [b0, b1, b2, b3] := by
  have hrange : List.range 4 = [0, 1, 2, 3] := rfl
  simp (disch := omega) only [bytesLE, hrange, List.map_cons, List.map_nil, byteOf, le32,
    BitVec.extractLsb'_append_eq_of_le, BitVec.extractLsb'_append_eq_right, BitVec.extractLsb'_eq_self, Nat.reduceMul,
    Nat.reduceSub]

/-- R104: the last payload word, whose leading bytes are the ones still to come. -/
theorem writes_lastPayloadWord {s : State} (hhalt : s.err.halt = false) (hpend : s.frame.pend = true) {w : Word}
    {data : List Byte} (hdata : (bytesLE 4 w).take data.length = data) (hprem : s.frame.prem.toNat = data.length)
    (hpos : 1 ≤ data.length) (hle : data.length ≤ 4) :
    Writes [w] s { updateBody (s.frame.pdata ++ data) s with frame := Frame.idle } := by
  obtain ⟨u, hu, hword⟩ := (payloadWordFeedsDecoder w s hpend (by omega)).1 (by omega)
  rw [hprem, hdata] at hu
  rw [hu, ← hword]
  exact writes_payloadWord hhalt hpend w

/-- R104, R112: the packed words of the bytes still to come complete the UPDATE. -/
theorem writes_packWords {data : List Byte} {s : State} (hhalt : s.err.halt = false) (hpend : s.frame.pend = true)
    (hprem : s.frame.prem.toNat = data.length) (hpos : 1 ≤ data.length) :
    Writes (packWords data) s { updateBody (s.frame.pdata ++ data) s with frame := Frame.idle } := by
  induction data using packWords.induct generalizing s with
  | case1 => simp at hpos
  | case2 b0 => exact writes_lastPayloadWord hhalt hpend (by simp [bytesLE_le32]) hprem hpos (by simp)
  | case3 b0 b1 => exact writes_lastPayloadWord hhalt hpend (by simp [bytesLE_le32]) hprem hpos (by simp)
  | case4 b0 b1 b2 => exact writes_lastPayloadWord hhalt hpend (by simp [bytesLE_le32]) hprem hpos (by simp)
  | case5 b0 b1 b2 b3 rest ih =>
    rw [packWords]
    cases rest with
    | nil => exact writes_lastPayloadWord hhalt hpend (by simp [bytesLE_le32]) hprem hpos (by simp)
    | cons b rest =>
      simp only [List.length_cons] at hprem
      have hfirst := (payloadWordFeedsDecoder (le32 b0 b1 b2 b3) s hpend (by omega)).2 (by omega)
      have hrest := ih (s := payloadWord (le32 b0 b1 b2 b3) s) (by rw [hfirst]; exact hhalt)
        (by rw [hfirst]; exact hpend) (by simp [hfirst, hprem]; omega) (by simp)
      have hall := (writes_payloadWord hhalt hpend (le32 b0 b1 b2 b3)).append hrest
      rw [hfirst, bytesLE_le32] at hall
      simp only [List.append_assoc] at hall
      exact hall

/-! ### UPDATE and UPDATE_LONG -/

/-- R305, R306, R110: the words of an UPDATE that the engine accepts. -/
theorem writes_updateWords {m : List Byte} {s : State} (hhalt : s.err.halt = false) (hframe : s.frame = Frame.idle)
    (halg : s.ctx.alg ≠ .none) (hm : m.length ≤ 65535) (hlen : s.ctx.len.toNat + m.length ≤ lenMax s.ctx.alg.kind)
    (hout : s.out.length ≤ 65535) : Writes (updateWords m) s (feed [m] s) := by
  have hn : (BitVec.ofNat 16 m.length).toNat = m.length := by
    rw [BitVec.toNat_ofNat]
    omega
  have hready : Ready s := ⟨hhalt, by rw [hframe]; rfl⟩
  have hheader := writes_command (i := .update (BitVec.ofNat 16 m.length)) hready hout
    (exec_update_of_accepted halg (by rw [hn]; exact hlen))
  rw [feed_singleton]
  split
  next hnil =>
    subst hnil
    exact hheader
  next hne =>
    have hpos : 1 ≤ m.length := List.length_pos_iff.2 hne
    have hzero : BitVec.ofNat 16 m.length ≠ 0 := fun h0 => by
      rw [h0] at hn
      simp at hn
      omega
    rw [if_neg hzero] at hheader
    have hbody : { updateBody m (openPayload (BitVec.ofNat 16 m.length) s) with frame := Frame.idle } =
        updateBody m s := by
      rw [← hframe]
      rfl
    rw [← hbody]
    exact hheader.append (writes_packWords hhalt rfl hn hpos)

/-- A field of the state that UPDATE_BODY keeps is kept by any chunks. -/
theorem feed_keeps {α : Type*} (f : State → α) (hf : ∀ data s, f (updateBody data s) = f s) (ms : List (List Byte))
    (s : State) : f (feed ms s) = f s := by
  induction ms generalizing s with
  | nil => rfl
  | cons m ms ih =>
    rw [feed_cons, ih, feed_singleton]
    split
    · rfl
    · exact hf m s

@[simp] theorem feed_reader (ms : List (List Byte)) (s : State) : (feed ms s).reader = s.reader :=
  feed_keeps State.reader updateBody_reader ms s

@[simp] theorem feed_err (ms : List (List Byte)) (s : State) : (feed ms s).err = s.err :=
  feed_keeps State.err updateBody_err ms s

@[simp] theorem feed_frame (ms : List (List Byte)) (s : State) : (feed ms s).frame = s.frame :=
  feed_keeps State.frame updateBody_frame ms s

@[simp] theorem feed_out (ms : List (List Byte)) (s : State) : (feed ms s).out = s.out :=
  feed_keeps State.out updateBody_out ms s

@[simp] theorem feed_seen (ms : List (List Byte)) (s : State) : (feed ms s).seen = s.seen :=
  feed_keeps State.seen updateBody_seen ms s

@[simp] theorem feed_ctx_alg (ms : List (List Byte)) (s : State) : (feed ms s).ctx.alg = s.ctx.alg :=
  feed_keeps (fun s => s.ctx.alg) (fun data s => by simp) ms s

/-- R35, R306: LEN counts the bytes of the chunks. -/
theorem feed_ctx_len (ms : List (List Byte)) (s : State) :
    (feed ms s).ctx.len = s.ctx.len + BitVec.ofNat 64 ms.flatten.length := by
  induction ms generalizing s with
  | nil => simp
  | cons m ms ih =>
    have hchunk : (feed [m] s).ctx.len = s.ctx.len + BitVec.ofNat 64 m.length := by
      rw [feed_singleton]
      split
      next hnil => simp [hnil]
      next => simp
    rw [feed_cons, ih, hchunk, List.flatten_cons, List.length_append, BitVec.ofNat_add, BitVec.add_assoc]

/-- R112, R307: UPDATEs of chunks, one after another. -/
theorem writes_flatMap_updateWords {ms : List (List Byte)} {s : State} (hhalt : s.err.halt = false)
    (hframe : s.frame = Frame.idle) (halg : s.ctx.alg ≠ .none) (hms : ∀ m ∈ ms, m.length ≤ 65535)
    (hlen : s.ctx.len.toNat + ms.flatten.length ≤ lenMax s.ctx.alg.kind) (hout : s.out.length ≤ 65535) :
    Writes (ms.flatMap updateWords) s (feed ms s) := by
  induction ms generalizing s with
  | nil => exact Writes.nil s
  | cons m ms ih =>
    obtain ⟨hm, hms⟩ := List.forall_mem_cons.1 hms
    rw [List.flatten_cons, List.length_append] at hlen
    have hmax := lenMax_lt s.ctx.alg.kind
    have hlen' : (feed [m] s).ctx.len.toNat = s.ctx.len.toNat + m.length := by
      rw [feed_ctx_len, BitVec.toNat_add, BitVec.toNat_ofNat, List.flatten_singleton]
      omega
    rw [List.flatMap_cons, feed_cons]
    exact (writes_updateWords hhalt hframe halg hm (by omega) hout).append
      (ih (by simpa using hhalt) (by simpa using hframe) (by simpa using halg) hms
        (by rw [hlen', feed_ctx_alg]; omega) (by simpa using hout))

/-- R112: the chunks that UPDATE_LONG makes of a message. -/
def longChunks (m : List Byte) : List (List Byte) := blocksOf 65535 m ++ [restOf 65535 m]

theorem updateLongWords_eq (m : List Byte) : updateLongWords m = (longChunks m).flatMap updateWords := by
  simp only [updateLongWords, longChunks, blocksOf, restOf, List.flatMap_append, List.flatMap_map,
    List.flatMap_singleton]

theorem flatten_longChunks (m : List Byte) : (longChunks m).flatten = m := flatten_blocksOf_restOf 65535 m

theorem longChunks_length_le (m : List Byte) : ∀ chunk ∈ longChunks m, chunk.length ≤ 65535 := by
  intro chunk h
  simp only [longChunks, blocksOf, List.mem_append, List.mem_map, List.mem_singleton] at h
  obtain ⟨i, _, rfl⟩ | rfl := h
  · exact List.length_take_le _ _
  · rw [restOf_length]
    exact (Nat.mod_lt _ (by decide)).le

/-! ### A message from its start: INIT and UPDATE_LONG -/

/-- R301: the state after INIT of the algorithm `a`. -/
def started (a : Alg) (s : State) : State := reinit { s with ctx := { s.ctx with alg := a } }

/-- R112: the state after INIT of `a` and the UPDATEs of UPDATE_LONG. -/
def fed (a : Alg) (m : List Byte) (s : State) : State := feed (longChunks m) (started a s)

theorem freshContext_started (a : Alg) (s : State) : FreshContext a (started a s).ctx := ⟨rfl, rfl, rfl, rfl, rfl⟩

/-- R301, R307: the context stands at the message, whatever was before. -/
theorem standsAt_fed {a : Alg} (ha : a ≠ .none) (m : List Byte) (s : State) :
    StandsAt (started a s).ctx m (fed a m s).ctx := by
  have hfed := (standsAt_nil (c0 := (started a s).ctx) rfl).feed ha (longChunks m)
  rwa [flatten_longChunks] at hfed

theorem fed_ctx_len (a : Alg) (m : List Byte) (s : State) : (fed a m s).ctx.len = BitVec.ofNat 64 m.length := by
  rw [fed, feed_ctx_len, flatten_longChunks, started, reinit_ctx_len]
  exact BitVec.zero_add _

@[simp] theorem fed_ctx_alg (a : Alg) (m : List Byte) (s : State) : (fed a m s).ctx.alg = a := by
  rw [fed, feed_ctx_alg, started, reinit_ctx_alg]

@[simp] theorem fed_reader (a : Alg) (m : List Byte) (s : State) : (fed a m s).reader = s.reader := by
  rw [fed, feed_reader, started, reinit_reader]

@[simp] theorem fed_err (a : Alg) (m : List Byte) (s : State) : (fed a m s).err = s.err := by
  rw [fed, feed_err, started, reinit_err]

@[simp] theorem fed_frame (a : Alg) (m : List Byte) (s : State) : (fed a m s).frame = s.frame := by
  rw [fed, feed_frame, started, reinit_frame]

@[simp] theorem fed_out (a : Alg) (m : List Byte) (s : State) : (fed a m s).out = s.out := by
  rw [fed, feed_out, started, reinit_out]

@[simp] theorem fed_seen (a : Alg) (m : List Byte) (s : State) : (fed a m s).seen = s.seen := by
  rw [fed, feed_seen, started, reinit_seen]

/-- R112, R301, R306: the words of INIT and UPDATE_LONG, on an engine between commands. -/
theorem writes_init_updateLong {a : Alg} {m : List Byte} {s : State} (ha : a ≠ .none)
    (hm : m.length ≤ lenMax a.kind) (hready : Ready s) (hframe : s.frame = Frame.idle) (hout : s.out.length ≤ 65535) :
    Writes (encode (.init (a.code.zeroExtend 8)) :: updateLongWords m) s (fed a m s) := by
  have hinit := writes_command (i := .init (a.code.zeroExtend 8)) hready hout
    (exec_init_of_algOfArg (algOfArg_code ha) s)
  rw [updateLongWords_eq]
  exact hinit.append (writes_flatMap_updateWords (s := started a s) hready.1 hframe ha (longChunks_length_le m)
    (by simpa [started, flatten_longChunks] using hm) hout)

theorem ready_fed {s : State} (hready : Ready s) (a : Alg) (m : List Byte) : Ready (fed a m s) := by
  simpa [Ready] using hready

/-- A program's words, written from where the host's list says. -/
theorem Writes.run {ws : List Word} {s t : State} (h : Writes ws s t) {rest : List HostOp}
    (hhost : s.host = ws.map .write ++ rest) :
    Host.Core.run core ws.length s = .next { t with host := rest } := by
  have hrun := h rest
  rwa [← hhost] at hrun

/-! ### HASH and XOF (R112) -/

/-- Settles O57: after INIT and UPDATE_LONG the context stands at the whole message, and FINAL's digest is its hash
and fits in OUT. -/
theorem hashProgramEmitsDigest : Obligations.HashProgramEmitsDigest := by
  intro a m s rest hkind hm hready hframe hroom hhost
  have ha : a ≠ .none := fun hnone => by simp [hnone, Alg.kind] at hkind
  have hxof : a.kind ≠ .xof := by obtain hk | hk := hkind <;> rw [hk] <;> decide
  have hexec : exec .final (fed a m s) = .next (finalBody (fed a m s)) := by simp [exec, execFinal, ha, hxof]
  have hneed : (fed a m s).out.length + outBytes .final (fed a m s) ≤ 65535 := by
    have := outLen_le a
    simp only [fed_out, outBytes, fed_ctx_alg]
    omega
  have hprogram := (writes_init_updateLong ha hm hready hframe (by omega)).append
    (writes_command (ready_fed hready a m) hneed hexec)
  refine ⟨_, hprogram.run hhost, ?_, ?_, rfl, by simp, by simpa using hframe, by simp, by simp⟩
  · simp [(standsAt_fed ha m s).digestOf_finalPad (freshContext_started a s) hkind (fed_ctx_len a m s)]
  · exact ⟨by simp, rfl, rfl, rfl, rfl⟩

/-- R112, R320: READs of a list of counts, one after another, are one reading of their sum. -/
theorem writes_reads {counts : List (BitVec 16)} {s : State} (hready : Ready s) (hv : s.reader.valid = true)
    (hout : s.out.length + (counts.map BitVec.toNat).sum ≤ 65535) :
    Writes (counts.map fun n => encode (.read n)) s (readBody (counts.map BitVec.toNat).sum s) := by
  induction counts generalizing s with
  | nil =>
    simpa using Writes.nil s
  | cons n counts ih =>
    simp only [List.map_cons, List.sum_cons] at hout ⊢
    rw [← readBody_readBody]
    have hfirst := writes_command (i := .read n) hready (by simp only [outBytes, hv, if_true]; omega)
      (exec_read_of_valid hv n)
    exact hfirst.append (ih (by simpa [Ready] using hready) (by simpa using hv) (by simp; omega))

/-- R112: the counts of READ_LONG. -/
def longCounts (n : Nat) : List (BitVec 16) := List.replicate (n / 65535) 65535 ++ [BitVec.ofNat 16 (n % 65535)]

theorem readLongWords_eq (n : Nat) : readLongWords n = (longCounts n).map fun k => encode (.read k) := by
  simp only [readLongWords, longCounts, List.map_append, List.map_replicate, List.map_singleton]

theorem sum_longCounts (n : Nat) : ((longCounts n).map BitVec.toNat).sum = n := by
  simp [longCounts]
  omega

/-- Settles O58: as O57 up to the message; FINAL_XOF's reader gives the message's output stream, and the READs of
READ_LONG are one reading of n bytes. -/
theorem xofProgramEmitsStream : Obligations.XofProgramEmitsStream := by
  intro a m n s rest hkind hm hready hframe hroom hhost
  have ha : a ≠ .none := fun hnone => by simp [hnone, Alg.kind] at hkind
  have hexec : exec .finalXof (fed a m s) = .next (finalXofBody (fed a m s)) := by simp [exec, execFinalXof, ha, hkind]
  have hfinal := (writes_init_updateLong ha hm hready hframe (by omega)).append
    (writes_command (ready_fed hready a m) (by simp [outBytes]; omega) hexec)
  have hreads := writes_reads (counts := longCounts n) (s := finalXofBody (fed a m s))
    (by simpa [Ready] using hready) rfl (by simp [sum_longCounts]; omega)
  rw [sum_longCounts, ← readLongWords_eq] at hreads
  have hprogram := hfinal.append hreads
  rw [List.append_assoc] at hprogram
  refine ⟨_, hprogram.run hhost, ?_, ?_, rfl, by simp, by simpa using hframe, by simp [newReader], by simp [newReader],
    by simp⟩
  · simp [(standsAt_fed ha m s).squeeze_newReader (freshContext_started a s) hkind n]
  · exact ⟨by simp, rfl, rfl, rfl, rfl⟩

end Sys2Proof.Machine
end

section
/-! PROOFS. What the block buffer hands to BLOCK (spec/40_block_buffer.md R143 to R151): the blocks of `process`, the
blocks of each padding byte by byte, all the blocks of a message, and the padding state machine. -/

namespace Sys2Proof.Machine

/-! ### Blocks by number and length -/

@[simp] theorem blocksOf_length (cap : Nat) (m : List Byte) : (blocksOf cap m).length = m.length / cap := by
  simp [blocksOf]

theorem length_of_mem_blocksOf {cap : Nat} {m b : List Byte} (h : b ∈ blocksOf cap m) : b.length = cap := by
  obtain ⟨i, hi, rfl⟩ := List.mem_map.1 h
  have hlast : cap * i + cap ≤ cap * (m.length / cap) := Nat.mul_le_mul_left cap (List.mem_range.1 hi)
  have hwhole := Nat.mul_div_le m.length cap
  rw [List.length_take, List.length_drop]
  omega

/-- A string of whole blocks is its blocks, joined. -/
theorem flatten_blocksOf_of_mod_eq_zero {cap : Nat} {m : List Byte} (h : m.length % cap = 0) :
    (blocksOf cap m).flatten = m := by
  have hrest : restOf cap m = [] := List.eq_nil_of_length_eq_zero (by rw [restOf_length, h])
  simpa [hrest] using flatten_blocksOf_restOf cap m

theorem flatten_blocksOf_append_restOf (cap : Nat) (m : List Byte) :
    (blocksOf cap m).flatten ++ restOf cap m = m := by
  rw [← List.flatten_concat, flatten_blocksOf_restOf]

/-- R34: BUF[0..<FILL] has FILL bytes. -/
theorem bufHead_fill_length {c : Context} (h : c.fill.toNat < c.alg.cap) :
    (bufHead c c.fill.toNat).length = c.fill.toNat := by
  have hcap := cap_le c.alg
  rw [bufHead_length]
  omega

/-! ### process (R143, R144) -/

/-- R143: a context stands at its own buffered bytes. -/
theorem standsAt_bufHead {c : Context} (h : c.fill.toNat < c.alg.cap) : StandsAt c (bufHead c c.fill.toNat) c := by
  have hlen := bufHead_fill_length h
  have hlt := hlen.trans_lt h
  rw [StandsAt, hlen, blocksOf_of_lt hlt, restOf_of_lt hlt]
  exact ⟨rfl, (Nat.mod_eq_of_lt h).symm, rfl, rfl, rfl⟩

/-- Settles O28: the context stands at its buffered bytes, and after `process` at those and the data. -/
theorem processSplitsIntoBlocks : Obligations.ProcessSplitsIntoBlocks := by
  intro data c halg hfill m d
  obtain ⟨hdalg, hdfill, hdbuf, hdh, hds⟩ : StandsAt c m d := (standsAt_bufHead hfill).process halg data
  have hm : m.length = c.fill.toNat + data.length := by rw [List.length_append, bufHead_fill_length hfill]
  rw [← hm]
  exact ⟨blocksOf_length _ _, hdfill, hdh, hds, hdbuf, hdalg, process_len data c⟩

/-! ### The padding's blocks (R145 to R149) -/

/-- R145, R201: the blocks of the length padding, joined. -/
theorem flatten_lengthPadBlocks {pre : List Byte} (hpre : pre.length < 64) (bitlen : BitVec 64) :
    (lengthPadBlocks 64 pre bitlen).flatten =
      pre ++ ([0x80] ++ zeros ((119 - pre.length) % 64) ++ bytesLE 8 bitlen) := by
  rw [← blocksOf_length_padding hpre]
  apply flatten_blocksOf_of_mod_eq_zero
  simp
  omega

theorem length_of_mem_lengthPadBlocks {pre b : List Byte} (hpre : pre.length < 64) {bitlen : BitVec 64}
    (h : b ∈ lengthPadBlocks 64 pre bitlen) : b.length = 64 := by
  rw [← blocksOf_length_padding hpre] at h
  exact length_of_mem_blocksOf h

/-- R146: the 0x80 and the 8 length bytes take a second block from offset 56 on. -/
theorem lengthPadBlocks_length {pre : List Byte} (hpre : pre.length < 64) (bitlen : BitVec 64) :
    (lengthPadBlocks 64 pre bitlen).length = if pre.length ≤ 55 then 1 else 2 := by
  rw [← blocksOf_length_padding hpre, blocksOf_length]
  simp
  split <;> omega

theorem padWithBlock_length {cap : Nat} (pad : Byte) {pre : List Byte} (hpre : pre.length < cap) :
    (padWithBlock cap pad pre).length = cap := by
  simp [padWithBlock]
  omega

theorem getElem?_zeros {n j : Nat} (h : j < n) : (zeros n)[j]? = some 0 := by
  simp [zeros, h]

theorem getElem?_bytesLE {w n k : Nat} (v : BitVec w) (h : k < n) : (bytesLE n v)[k]? = some (byteOf v k) := by
  simp [bytesLE, h]

/-- Settles O31: the blocks, joined, are the message bytes, 0x80, zeros and the length, and each byte is read there. -/
theorem lengthPadBlocksByOffset : Obligations.LengthPadBlocksByOffset := by
  intro pre bitlen hpre bs
  have hcount : bs.length = if pre.length ≤ 55 then 1 else 2 := lengthPadBlocks_length hpre bitlen
  have hflat : bs.flatten = pre ++ ([0x80] ++ zeros ((119 - pre.length) % 64) ++ bytesLE 8 bitlen) :=
    flatten_lengthPadBlocks hpre bitlen
  have hlen : bs.flatten.length = pre.length + 1 + (119 - pre.length) % 64 + 8 := by simp [hflat]; omega
  refine ⟨fun b hb => length_of_mem_lengthPadBlocks hpre hb, fun h => by rw [hcount, if_pos h],
    fun h => by rw [hcount, if_neg (by omega)], fun j hj => ?_, ?_, fun j hj hend => ?_, fun k hk => ?_⟩
  · rw [hflat, List.getElem?_append_left hj]
  · simp [hflat]
  · rw [hflat, List.getElem?_append_right hj.le, List.getElem?_append_left (by simp; omega),
      List.getElem?_append_right (by simp; omega)]
    exact getElem?_zeros (by simp; omega)
  · rw [hlen, hflat, List.getElem?_append_right (by omega), List.getElem?_append_right (by simp; omega),
      ← getElem?_bytesLE bitlen hk]
    congr 1
    simp
    omega

theorem getElem?_padWithBlock_of_lt {cap j : Nat} (pad : Byte) {pre : List Byte} (hpre : pre.length < cap)
    (hj : j < pre.length) : (padWithBlock cap pad pre)[j]? = pre[j]? := by
  rw [padWithBlock_eq pad hpre, List.getElem?_append_left hj]

/-- R147: with room for two bytes, PAD, zeros and 0x80 stand apart. -/
theorem getElem?_padWithBlock_of_room {cap : Nat} (pad : Byte) {pre : List Byte} (hpre : pre.length < cap - 1) :
    (padWithBlock cap pad pre)[pre.length]? = some pad ∧
      (∀ j, pre.length < j → j < cap - 1 → (padWithBlock cap pad pre)[j]? = some 0) ∧
      (padWithBlock cap pad pre)[cap - 1]? = some 0x80 := by
  rw [padWithBlock_eq pad (by omega), if_neg (by omega)]
  refine ⟨by simp, fun j hj hend => ?_, ?_⟩
  · rw [List.getElem?_append_right hj.le, List.getElem?_append_left (by simp; omega),
      List.getElem?_append_right (by simp; omega)]
    exact getElem?_zeros (by simp; omega)
  · have hlast : cap - 1 - pre.length = ([pad] ++ zeros (cap - pre.length - 2)).length := by simp; omega
    rw [List.getElem?_append_right (by omega), hlast, List.getElem?_concat_length]

/-- R149: with room for one byte, PAD and 0x80 share it. -/
theorem getElem?_padWithBlock_of_full {cap : Nat} (pad : Byte) {pre : List Byte} (hpre : pre.length < cap)
    (hlast : pre.length = cap - 1) : (padWithBlock cap pad pre)[cap - 1]? = some (pad ||| 0x80) := by
  rw [padWithBlock_eq pad hpre, if_pos (by omega), ← hlast, List.getElem?_concat_length]

/-- Settles O32: below CAP the buffer is padded in place, by the one block of `padWithBlock`. -/
theorem padWithOneBlock : Obligations.PadWithOneBlock := by
  intro c _ hfill
  have hlen := bufHead_fill_length hfill
  have hpre := hlen.trans_lt hfill
  refine ⟨padWithBlock c.alg.cap c.alg.pad (bufHead c c.fill.toNat), ?_, padWithBlock_length _ hpre,
    fun j hj => ?_, fun hroom => ?_, fun hlast => ?_⟩
  · rw [padWith, emptyIfFull_of_lt c hfill]
  · rw [getElem?_padWithBlock_of_lt _ hpre (hlen.symm ▸ hj), bufHead, List.getElem?_take_of_lt hj]
  · simpa only [hlen] using getElem?_padWithBlock_of_room c.alg.pad (hlen.trans_lt hroom)
  · exact getElem?_padWithBlock_of_full _ hpre (hlen.trans hlast)

/-! ### All the blocks of a message (R150) -/

/-- R145, R147: the blocks that a finalize under `a` hands to BLOCK after the bytes `pre` of the last, partial block. -/
def finalBlocks (a : Alg) (pre : List Byte) (bitlen : BitVec 64) : List (List Byte) :=
  if a.kind = .md then lengthPadBlocks a.cap pre bitlen else [padWithBlock a.cap a.pad pre]

/-- R145, R147, R34: the padding of a buffer that is not full. -/
theorem finalPad_eq {c : Context} (h : c.fill.toNat < c.alg.cap) :
    finalPad c =
      { (finalBlocks c.alg (bufHead c c.fill.toNat) (bitLength c)).foldl block c with fill := 0 } := by
  unfold finalPad finalBlocks
  split
  · rw [lengthPad, emptyIfFull_of_lt c h]
  · rw [padWith, emptyIfFull_of_lt c h]
    rfl

theorem foldl_block_congr {c d : Context} (halg : c.alg = d.alg) (hh : c.h = d.h) (hs : c.s = d.s)
    (bs : List (List Byte)) :
    (bs.foldl block c).h = (bs.foldl block d).h ∧ (bs.foldl block c).s = (bs.foldl block d).s := by
  induction bs generalizing c d with
  | nil => exact ⟨hh, hs⟩
  | cons b bs ih =>
    obtain ⟨hbh, hbs⟩ := block_congr halg hh hs b
    exact ih (by simpa using halg) hbh hbs

/-- R150: a finalize leaves H and S as BLOCK does of the message's blocks and then the padding's. -/
theorem StandsAt.finalPad_blocks {c0 c : Context} {m : List Byte} (h : StandsAt c0 m c) (halg0 : c0.alg ≠ .none) :
    let bs := blocksOf c0.alg.cap m ++ finalBlocks c0.alg (restOf c0.alg.cap m) (bitLength c)
    (finalPad c).h = (bs.foldl block c0).h ∧ (finalPad c).s = (bs.foldl block c0).s := by
  obtain ⟨halg, hfill, hbuf, hh, hs⟩ := h
  have hlt : c.fill.toNat < c.alg.cap := by
    rw [hfill, halg]
    exact Nat.mod_lt _ (cap_pos _ halg0)
  rw [finalPad_eq hlt, hbuf, halg]
  simp only [List.foldl_append]
  exact foldl_block_congr (by rw [halg, foldl_block_alg]) hh hs _

theorem length_of_mem_finalBlocks {a : Alg} {pre b : List Byte} (hpre : pre.length < a.cap) {bitlen : BitVec 64}
    (h : b ∈ finalBlocks a pre bitlen) : b.length = a.cap := by
  unfold finalBlocks at h
  split at h
  next hmd =>
    obtain rfl := (kind_eq_md_iff a).1 hmd
    exact length_of_mem_lengthPadBlocks hpre h
  next => exact List.mem_singleton.1 h ▸ padWithBlock_length a.pad hpre

/-- R201: the bit length of a message of n bytes, as LEN counts them. -/
theorem bitLength_of_len {c : Context} {n : Nat} (h : c.len = BitVec.ofNat 64 n) :
    bitLength c = BitVec.ofNat 64 (8 * n) := by
  apply BitVec.eq_of_toNat_eq
  simp only [bitLength, h, BitVec.toNat_ofNat]
  omega

theorem flatten_blocksOf_append_finalBlocks {a : Alg} (ha : a ≠ .none) (m : List Byte) :
    (blocksOf a.cap m ++ finalBlocks a (restOf a.cap m) (BitVec.ofNat 64 (8 * m.length))).flatten =
      if a.kind = .md then mdPadded m else spongePadded a.cap a.pad m := by
  unfold finalBlocks
  split
  next hmd =>
    obtain rfl := (kind_eq_md_iff a).1 hmd
    have hwhole : (mdPadded m).length % 64 = 0 := by simp [mdPadded]; omega
    exact blocksOf_mdPadded m ▸ flatten_blocksOf_of_mod_eq_zero hwhole
  next hsponge =>
    have hlt : (restOf a.cap m).length < a.cap := restOf_length a.cap m ▸ Nat.mod_lt _ (cap_pos a ha)
    rw [List.flatten_append, List.flatten_singleton, padWithBlock_eq _ hlt, ← List.append_assoc,
      flatten_blocksOf_append_restOf, restOf_length, spongePadded]
    split <;> simp only [List.append_assoc]

/-- R150: ⌈(n + 9)/64⌉ blocks for RIPEMD-160 and ⌊n/CAP⌋ + 1 for a sponge. -/
theorem length_blocksOf_append_finalBlocks (a : Alg) (m : List Byte) (bitlen : BitVec 64) :
    (blocksOf a.cap m ++ finalBlocks a (restOf a.cap m) bitlen).length =
      if a.kind = .md then (m.length + 9 + 63) / 64 else m.length / a.cap + 1 := by
  rw [List.length_append, blocksOf_length, finalBlocks]
  split
  next hmd =>
    obtain rfl := (kind_eq_md_iff a).1 hmd
    have hrest : (restOf 64 m).length = m.length % 64 := restOf_length 64 m
    simp only [Alg.cap, lengthPadBlocks_length (hrest ▸ Nat.mod_lt _ (by decide)), hrest]
    split <;> omega
  next => rfl

/-- Settles O33: the fed context stands at the message, and its padding ends the padded message's blocks. -/
theorem paddedLengthIsWholeBlocks : Obligations.PaddedLengthIsWholeBlocks := by
  intro ms s halg hfill m cap c bs
  have hstands : StandsAt s.ctx m c := (standsAt_nil hfill).feed halg ms
  have hbs : bs = blocksOf cap m ++ finalBlocks s.ctx.alg (restOf cap m) (bitLength c) := rfl
  have hcap : 0 < cap := cap_pos _ halg
  have hrest : (restOf cap m).length < cap := restOf_length cap m ▸ Nat.mod_lt _ hcap
  obtain ⟨hh, hs⟩ := hstands.finalPad_blocks halg
  refine ⟨hh, hs, fun b hb => ?_,
    length_blocksOf_append_finalBlocks s.ctx.alg m (bitLength c), fun hlen _ => ?_⟩
  · obtain hb | hb := List.mem_append.1 hb
    · exact length_of_mem_blocksOf hb
    · exact length_of_mem_finalBlocks hrest hb
  · have hc : c.len = BitVec.ofNat 64 m.length := by rw [feed_ctx_len, hlen]; exact BitVec.zero_add _
    rw [hbs, bitLength_of_len hc]
    exact flatten_blocksOf_append_finalBlocks halg m

end Sys2Proof.Machine
end

section
/-! PROOFS. The padding state machine (spec/40_block_buffer.md R151) ends where the atomic finalize ends. -/

namespace Sys2Proof.Machine

/-! ### The transitions -/

/-- R34: with FILL below CAP a finalize starts with the first padding block. -/
theorem padFsmNext_accum {s : State} (h : s.ctx.fill.toNat < s.ctx.alg.cap) (blk : List Byte) :
    padFsmNext ⟨.accum, blk, s⟩ = ⟨.padFirst, blk, s⟩ := by
  simp only [padFsmNext, if_neg h.ne]

/-- R146, R151: whether the length needs a block of its own. -/
def PadSpills (c : Context) : Prop := c.alg.kind = .md ∧ c.alg.cap - 8 < c.fill.toNat + 1

theorem padFsmNext_padFirst_of_spills {s : State} (h : PadSpills s.ctx) (blk : List Byte) :
    padFsmNext ⟨.padFirst, blk, s⟩ = ⟨.padSpill, firstPadBlock s.ctx, s⟩ := by
  exact congrArg (PadFsm.mk · (firstPadBlock s.ctx) s) (if_pos h)

theorem padFsmNext_padFirst_of_fits {s : State} (h : ¬ PadSpills s.ctx) (blk : List Byte) :
    padFsmNext ⟨.padFirst, blk, s⟩ = ⟨.padLast, firstPadBlock s.ctx, s⟩ := by
  exact congrArg (PadFsm.mk · (firstPadBlock s.ctx) s) (if_neg h)

theorem padFsmNext_padSpill (blk : List Byte) (s : State) :
    padFsmNext ⟨.padSpill, blk, s⟩ = ⟨.padLast, zeros s.ctx.alg.cap, { s with ctx := block s.ctx blk }⟩ := rfl

theorem padFsmNext_padLast (blk : List Byte) (s : State) :
    padFsmNext ⟨.padLast, blk, s⟩ =
      ⟨.emit, blk, { s with ctx := { block s.ctx (lastPadBlock s.ctx blk) with fill := 0 } }⟩ := rfl

theorem padFsmNext_emit (blk : List Byte) (s : State) :
    padFsmNext ⟨.emit, blk, s⟩ = ⟨.accum, blk, reinit (padOutput s)⟩ := rfl

/-! ### The blocks of the transitions are those of the padding -/

/-- R145, R151: the length padding of two blocks is PAD_FIRST's block and PAD_LAST's. -/
theorem finalBlocks_of_spills {c : Context} (hfill : c.fill.toNat < c.alg.cap) (h : PadSpills c) :
    finalBlocks c.alg (bufHead c c.fill.toNat) (bitLength c) =
      [firstPadBlock c, lastPadBlock c (zeros c.alg.cap)] := by
  obtain ⟨hmd, hspill⟩ := h
  have hzeros : (zeros c.alg.cap).take (c.alg.cap - 8) = zeros (c.alg.cap - 8) := by simp [zeros]
  simp only [finalBlocks, firstPadBlock, lastPadBlock, lengthPadBlocks, if_pos hmd, bufHead_fill_length hfill,
    if_pos hspill, hzeros]

theorem finalBlocks_of_fits {c : Context} (hfill : c.fill.toNat < c.alg.cap) (h : ¬ PadSpills c) :
    finalBlocks c.alg (bufHead c c.fill.toNat) (bitLength c) = [lastPadBlock c (firstPadBlock c)] := by
  by_cases hmd : c.alg.kind = .md
  · have hfits : ¬ c.alg.cap - 8 < c.fill.toNat + 1 := fun hspill => h ⟨hmd, hspill⟩
    simp only [finalBlocks, firstPadBlock, lastPadBlock, lengthPadBlocks, if_pos hmd, bufHead_fill_length hfill,
      if_neg hfits]
  · simp only [finalBlocks, firstPadBlock, lastPadBlock, padWithBlock, if_neg hmd, bufHead_fill_length hfill]

/-- R151: PAD_SPILL hands over the first block, and PAD_LAST works on what BLOCK leaves. -/
theorem finalPad_of_spills {c : Context} (hfill : c.fill.toNat < c.alg.cap) (h : PadSpills c) :
    let d := block c (firstPadBlock c)
    finalPad c = { block d (lastPadBlock d (zeros c.alg.cap)) with fill := 0 } := by
  intro d
  have hlast : lastPadBlock d (zeros c.alg.cap) = lastPadBlock c (zeros c.alg.cap) := by
    simp [d, lastPadBlock, bitLength]
  rw [finalPad_eq hfill, finalBlocks_of_spills hfill h, hlast]
  rfl

theorem finalPad_of_fits {c : Context} (hfill : c.fill.toNat < c.alg.cap) (h : ¬ PadSpills c) :
    finalPad c = { block c (lastPadBlock c (firstPadBlock c)) with fill := 0 } := by
  rw [finalPad_eq hfill, finalBlocks_of_fits hfill h]
  rfl

/-- R311, R316: the output step on the padded context, and REINIT, are the rest of the atomic command. -/
theorem reinit_padOutput_finalPad (s : State) :
    reinit (padOutput { s with ctx := finalPad s.ctx }) =
      if s.ctx.alg.kind = .xof then finalXofBody s else finalBody s := by
  simp only [padOutput, finalPad_alg]
  split <;> rfl

/-! ### The runs from ACCUM to ACCUM -/

/-- R151: k transitions take `m` to `n`, and no state in between is ACCUM. -/
def PadRun (k : Nat) (m n : PadFsm) : Prop :=
  padFsmNext^[k] m = n ∧ ∀ j, 0 < j → j < k → (padFsmNext^[j] m).phase ≠ .accum

theorem PadRun.single {m n : PadFsm} (h : padFsmNext m = n) : PadRun 1 m n :=
  ⟨h, fun j hpos hlast => by omega⟩

theorem PadRun.cons {k : Nat} {m m' n : PadFsm} (h : padFsmNext m = m') (hphase : m'.phase ≠ .accum)
    (hrun : PadRun k m' n) : PadRun (k + 1) m n := by
  obtain ⟨hend, hbetween⟩ := hrun
  refine ⟨by rw [Function.iterate_succ_apply, h, hend], fun j hpos hlast => ?_⟩
  obtain ⟨i, rfl⟩ := Nat.exists_eq_succ_of_ne_zero hpos.ne'
  rw [Function.iterate_succ_apply, h]
  cases i with
  | zero => exact hphase
  | succ i => exact hbetween (i + 1) i.succ_pos (Nat.lt_of_succ_lt_succ hlast)

theorem padRun_padLast (blk : List Byte) (s : State) :
    PadRun 2 ⟨.padLast, blk, s⟩
      ⟨.accum, blk, reinit (padOutput { s with ctx := { block s.ctx (lastPadBlock s.ctx blk) with fill := 0 } })⟩ :=
  .cons (padFsmNext_padLast blk s) nofun (.single (padFsmNext_emit blk _))

theorem padRun_of_spills {s : State} (hfill : s.ctx.fill.toNat < s.ctx.alg.cap) (h : PadSpills s.ctx)
    (blk : List Byte) :
    PadRun 5 ⟨.accum, blk, s⟩
      ⟨.accum, zeros s.ctx.alg.cap, reinit (padOutput { s with ctx := finalPad s.ctx })⟩ := by
  rw [finalPad_of_spills hfill h]
  exact .cons (padFsmNext_accum hfill blk) nofun <| .cons (padFsmNext_padFirst_of_spills h blk) nofun <|
    .cons (padFsmNext_padSpill _ s) nofun (padRun_padLast _ _)

theorem padRun_of_fits {s : State} (hfill : s.ctx.fill.toNat < s.ctx.alg.cap) (h : ¬ PadSpills s.ctx)
    (blk : List Byte) :
    PadRun 4 ⟨.accum, blk, s⟩
      ⟨.accum, firstPadBlock s.ctx, reinit (padOutput { s with ctx := finalPad s.ctx })⟩ := by
  rw [finalPad_of_fits hfill h]
  exact .cons (padFsmNext_accum hfill blk) nofun <| .cons (padFsmNext_padFirst_of_fits h blk) nofun <|
    padRun_padLast _ s

/-- Settles O34: five transitions when the length spills into a second block, and four when it does not. -/
theorem paddingStateMachineRefinesFinalize : Obligations.PaddingStateMachineRefinesFinalize := by
  intro s blk _ hfill
  rw [← reinit_padOutput_finalPad]
  obtain ⟨k, hk, b, hend, hbetween⟩ : ∃ k, (k = 4 ∨ k = 5) ∧ ∃ b, PadRun k ⟨.accum, blk, s⟩
      ⟨.accum, b, reinit (padOutput { s with ctx := finalPad s.ctx })⟩ := by
    by_cases h : PadSpills s.ctx
    · exact ⟨5, .inr rfl, _, padRun_of_spills hfill h blk⟩
    · exact ⟨4, .inl rfl, _, padRun_of_fits hfill h blk⟩
  exact ⟨k, hk, by rw [hend], by rw [hend], hbetween⟩

end Sys2Proof.Machine
end

section
/-! PROOFS. The two engines: the tables of RIPEMD-160 (spec/41_ripemd160.md R185 to R188), and the worked examples of
the compression and of the permutation (R192, spec/42_keccak.md R230, R232). -/

namespace Sys2Proof.Machine

/-! ### The tables of RIPEMD-160 -/

/-- R185, R186: a row of a word selection selects each of the sixteen words once. -/
theorem perm_range_of_mem_selections : ∀ row ∈ rmdRL ++ rmdRR, row.Perm (List.range 16) := by decide

/-- R187, R188: the tables of rotation amounts are five rows of sixteen. -/
theorem length_of_mem_rotations : ∀ row ∈ rmdSL ++ rmdSR, row.length = 16 := by decide

/-- R187, R188: no rotation is by 0, or by 32 or more. -/
theorem bounds_of_mem_rotations : ∀ row ∈ rmdSL ++ rmdSR, ∀ n ∈ row, 5 ≤ n ∧ n ≤ 15 := by decide

/-- The entry for step j stands in a row of the table, where the table has a row for the step. -/
theorem exists_row_mem_rmdEntry {table : List (List Nat)} (hlen : ∀ row ∈ table, row.length = 16) {j : Nat}
    (hj : j < 16 * table.length) : ∃ row ∈ table, rmdEntry table j ∈ row := by
  have hrow : j / 16 < table.length := by omega
  have hmem : table[j / 16] ∈ table := List.getElem_mem hrow
  have hcol : j % 16 < table[j / 16].length := by rw [hlen _ hmem]; omega
  refine ⟨table[j / 16], hmem, ?_⟩
  rw [rmdEntry, List.getD_eq_getElem _ _ hrow, List.getD_eq_getElem _ _ hcol]
  exact List.getElem_mem hcol

/-- R187, R188: the bounds hold of the amount of every step, of either line. -/
theorem rmdEntry_rotation_bounds {table : List (List Nat)} (hsub : table ⊆ rmdSL ++ rmdSR) {j : Nat}
    (hj : j < 16 * table.length) : 5 ≤ rmdEntry table j ∧ rmdEntry table j ≤ 15 := by
  obtain ⟨row, hrow, hentry⟩ :=
    exists_row_mem_rmdEntry (fun row hrow => length_of_mem_rotations row (hsub hrow)) hj
  exact bounds_of_mem_rotations row (hsub hrow) _ hentry

/-- Settles O48: a row that permutes 0..15 has each k < 16 once and has sixteen entries, and the amounts of step j stand
in the tables. -/
theorem ripemdTablesWellFormed : Obligations.RipemdTablesWellFormed := by
  refine ⟨fun row hrow k hk => ?once, fun row hrow => ?sixteen, fun j hj => ?rotations⟩
  case once =>
    rw [(perm_range_of_mem_selections row hrow).count_eq]
    exact List.count_eq_one_of_mem List.nodup_range (List.mem_range.2 hk)
  case sixteen =>
    rw [(perm_range_of_mem_selections row hrow).length_eq, List.length_range]
  case rotations =>
    obtain ⟨hloL, hhiL⟩ := rmdEntry_rotation_bounds (List.subset_append_left rmdSL rmdSR) hj
    obtain ⟨hloR, hhiR⟩ := rmdEntry_rotation_bounds (List.subset_append_right rmdSL rmdSR) hj
    exact ⟨hloL, hhiL, hloR, hhiR⟩

/-! ### The zero state of Keccak -/

@[simp] theorem lane_replicate (v : Lane) (x y : Nat) : lane (Vector.replicate 25 v) x y = v := by simp [lane]

theorem theta_zero : theta (Vector.replicate 25 0) = Vector.replicate 25 0 := by
  refine lanes_ext _ _ fun x y hx hy => ?_
  simp [lane_theta _ x y hx hy, columnEffect, columnParity, rol]

theorem rhoPi_zero : rhoPi (Vector.replicate 25 0) = Vector.replicate 25 0 := by
  refine lanes_ext _ _ fun x y hx hy => ?_
  simp [lane_rhoPi _ x y hx hy, rol]

theorem chi_zero : chi (Vector.replicate 25 0) = Vector.replicate 25 0 := by
  refine lanes_ext _ _ fun x y hx hy => ?_
  simp [lane_chi _ x y hx hy]

/-- R230: θ, ρ∘π and χ keep the zero state, so a round of it leaves the round constant in lane (0, 0) alone. -/
theorem keccakRound_zero (i : Nat) :
    keccakRound (Vector.replicate 25 0) i = (Vector.replicate 25 0).set 0 (keccakRC.getD i 0) := by
  rw [keccakRound, theta_zero, rhoPi_zero, chi_zero, iota]
  simp

/-- R232: the zero state is no fixed point: lane (0, 0) after the 24 rounds. -/
theorem keccakF_zero_getElem_zero : (keccakF (Vector.replicate 25 0))[0] = 0xF1258F7940E1DDE7 := by decide +kernel

/-! ### The padding block of the empty message, compressed (R192)

The lines are independent (R190), so each is evaluated by itself and COMBINE joins the two. -/

theorem rmdLeft_emptyMessage :
    rmdLeft ripemdIV (0x80 :: zeros 63) 80 =
      ⟨0x594637A7, 0x215D97B3, 0xEBA027EB, 0xB99CDC7A, 0xEC4DCDFF⟩ := by decide +kernel

theorem rmdRight_emptyMessage :
    rmdRight ripemdIV (0x80 :: zeros 63) 80 =
      ⟨0x9A8805EC, 0x2BDCCEE7, 0xA8EA6AFE, 0xCA173E28, 0x02A5304D⟩ := by decide +kernel

theorem rmdCompress_emptyMessage :
    rmdCompress ripemdIV (0x80 :: zeros 63) =
      #v[0xA585119C, 0x54FCE9C5, 0x97082861, 0x48F5E87E, 0x318D25B2] := by
  rw [rmdCompress, rmdLeft_emptyMessage, rmdRight_emptyMessage]
  rfl

/-- Settles O46: the compression from its two lines, the round by `keccakRound_zero` with RC[0] = 1, and the permutation
by its 24 rounds. -/
theorem engineWorkedExamples : Obligations.EngineWorkedExamples :=
  ⟨rmdCompress_emptyMessage, keccakRound_zero 0, keccakF_zero_getElem_zero⟩

end Sys2Proof.Machine
end

section
/-! PROOFS. The permutation engine (spec/42_keccak.md): where ρ and π move each lane (R227), why no step mapping and not
KECCAK_F map two states to one (R232), and the formulas that re-derive the tables (R233). -/

namespace Sys2Proof.Machine

/-! ### Rotation of a lane (R13) -/

/-- R13: bit i of a rotated lane is the bit n places below it, round the end of the lane. -/
theorem getElem_rol (a : Lane) (n i : Nat) (hi : i < 64) :
    (rol a n)[i] = a[(i + (64 - n % 64)) % 64]'(Nat.mod_lt _ (by decide)) := by
  change (a.rotateLeft n)[i] = _
  rw [BitVec.getElem_rotateLeft]
  split
  · congr 1; omega
  · congr 1; omega

theorem rol_xor (a b : Lane) (n : Nat) : rol (a ^^^ b) n = rol a n ^^^ rol b n := by
  ext i hi
  simp only [getElem_rol _ _ i hi, BitVec.getElem_xor]

theorem rol_rol (a : Lane) (m n : Nat) : rol (rol a m) n = rol a (m + n) := by
  ext i hi
  simp only [getElem_rol _ _ _ (Nat.mod_lt _ (by decide : 0 < 64)), getElem_rol _ _ i hi]
  congr 1
  omega

/-- R13: rotation by the whole width, or by a multiple of it, changes nothing. -/
theorem rol_of_mod_eq_zero (a : Lane) {n : Nat} (hn : n % 64 = 0) : rol a n = a := by
  ext i hi
  rw [getElem_rol _ _ i hi]
  congr 1
  omega

theorem rol_injective (n : Nat) : Function.Injective fun a : Lane => rol a n := by
  refine Function.LeftInverse.injective (g := fun a => rol a (64 - n % 64)) fun a => ?_
  exact (rol_rol a n _).trans (rol_of_mod_eq_zero a (by omega))

/-! ### ρ and π (R227) -/

theorem lane_rhoPi_moved (A : Lanes) (x y : Nat) (hx : x < 5) (hy : y < 5) :
    lane (rhoPi A) y ((2 * x + 3 * y) % 5) = rol (lane A x y) (rotOffset x y) := by
  have hsource : (y + 3 * ((2 * x + 3 * y) % 5)) % 5 = x := by omega
  rw [lane_rhoPi A _ _ hy (by omega), ← lane_mod, hsource, Nat.mod_eq_of_lt hy]

/-- Settles O50: by `lane_rhoPi_moved`; the lane that reaches (u, v) is the one at x = u + 3v mod 5, since 2 and 3 are
inverse to each other mod 5. -/
theorem rhoPiMovesEachLane : Obligations.RhoPiMovesEachLane :=
  ⟨lane_rhoPi_moved, fun u v _ _ => ⟨(u + 3 * v) % 5, by omega, by omega, fun x' _ _ => by omega⟩⟩

theorem rhoPi_injective : Function.Injective rhoPi := by
  refine fun A B h => lanes_ext A B fun x y hx hy => rol_injective (rotOffset x y) ?_
  simp only [← lane_rhoPi_moved _ x y hx hy, h]

/-! ### θ (R226)

θ adds to each lane the effect of its column, which depends on the parities of the columns alone; so it is enough that
the parities before θ can be told from those after it. The parity of column x becomes C[x] + C[x − 1] + rol(C[x + 1], 1).
Were two families of parities mapped to one, their difference d would solve d[x] = d[x − 1] + rol(d[x + 1], 1). Putting
the equation into itself doubles each shift and the rotation; after six doublings the rotation is by 64, which is none,
and the equation left has only the zero solution. -/

theorem columnParity_add_five (A : Lanes) (x : Nat) : columnParity A (x + 5) = columnParity A x := by
  simp [columnParity, lane]

theorem columnEffect_mod (A : Lanes) (x : Nat) : columnEffect A (x % 5) = columnEffect A x := by
  simp [columnEffect, columnParity, lane]

/-- R226: a column has five lanes, so θ adds the column effect to its parity an odd number of times. -/
theorem columnParity_theta (A : Lanes) (x : Nat) :
    columnParity (theta A) x = columnParity A x ^^^ columnEffect A x := by
  have hlane (y : Nat) : lane (theta A) x y = lane A x y ^^^ columnEffect A x := by
    rw [theta, lane_ofGrid, lane_mod, columnEffect_mod]
  ext i hi
  simp only [columnParity, hlane, BitVec.getElem_xor]
  cases (columnEffect A x)[i] <;> simp

/-- Each d[x] is d[x − a] + rol(d[x + a], a); a step of 4a is one of −a mod 5. -/
def MixesToItself (d : Nat → Lane) (a : Nat) : Prop :=
  ∀ x, d x = d (x + 4 * a) ^^^ rol (d (x + a)) a

/-- The equation put into itself: the two terms that hold d[x], rotated by a, cancel. -/
theorem MixesToItself.double {d : Nat → Lane} {a : Nat} (h : MixesToItself d a) : MixesToItself d (2 * a) := by
  intro x
  have hmiddle : d (x + a + 4 * a) = d (x + 4 * a + a) := by congr 1; omega
  calc d x
    _ = d (x + 4 * a) ^^^ rol (d (x + a)) a := h x
    _ = (d (x + 4 * a + 4 * a) ^^^ rol (d (x + 4 * a + a)) a) ^^^
          rol (d (x + 4 * a + a) ^^^ rol (d (x + a + a)) a) a := by
      rw [← hmiddle, ← h (x + a), hmiddle, ← h (x + 4 * a)]
    _ = d (x + 4 * a + 4 * a) ^^^ rol (d (x + a + a)) (a + a) := by
      rw [rol_xor, rol_rol, BitVec.xor_assoc, ← BitVec.xor_assoc (rol _ a), BitVec.xor_self, BitVec.zero_xor]
    _ = d (x + 4 * (2 * a)) ^^^ rol (d (x + 2 * a)) (2 * a) := by
      congr 2 <;> ring_nf

theorem MixesToItself.two_pow {d : Nat → Lane} (h : MixesToItself d 1) (k : Nat) : MixesToItself d (2 ^ k) := by
  induction k with
  | zero => exact h
  | succ k ih => rw [Nat.pow_succ']; exact ih.double

/-- θ's mixing has no solution of period 5 but zero: by `two_pow 6` it says d[x] = d[x + 1] + d[x − 1], whence all five
columns are equal. -/
theorem MixesToItself.eq_zero {d : Nat → Lane} (h : MixesToItself d 1) (hperiod : Function.Periodic d 5) (x : Nat) :
    d x = 0 := by
  have hneighbours (x : Nat) : d x = d (x + 1) ^^^ d (x + 4) := by
    have h64 := h.two_pow 6 x
    rw [rol_of_mod_eq_zero _ (by decide), ← hperiod.map_mod_nat (x + 4 * 2 ^ 6),
      ← hperiod.map_mod_nat (x + 2 ^ 6)] at h64
    rw [h64, ← hperiod.map_mod_nat (x + 1), ← hperiod.map_mod_nat (x + 4)]
    congr 2 <;> omega
  have htwo (x : Nat) : d (x + 2) = d (x + 4) := by
    have h0 := hneighbours x
    have h1 : d (x + 1) = d (x + 2) ^^^ d x := by rw [hneighbours (x + 1), ← hperiod x]
    calc d (x + 2)
      _ = (d (x + 2) ^^^ d x) ^^^ d x := by rw [BitVec.xor_assoc, BitVec.xor_self, BitVec.xor_zero]
      _ = d (x + 1) ^^^ (d (x + 1) ^^^ d (x + 4)) := by rw [← h1, ← h0]
      _ = d (x + 4) := by rw [← BitVec.xor_assoc, BitVec.xor_self, BitVec.zero_xor]
  have hfour : d (x + 4) = d (x + 1) := by rw [htwo (x + 2), ← hperiod (x + 1)]
  rw [hneighbours x, hfour, BitVec.xor_self]
  rfl

/-- The difference of the column parities of two states. -/
def columnDifference (A B : Lanes) (x : Nat) : Lane := columnParity A x ^^^ columnParity B x

theorem columnDifference_periodic (A B : Lanes) : Function.Periodic (columnDifference A B) 5 := fun x => by
  simp only [columnDifference, columnParity_add_five]

/-- The difference of the parities, after θ: θ's mixing is linear. -/
theorem columnDifference_theta (A B : Lanes) (x : Nat) :
    columnDifference (theta A) (theta B) x =
      columnDifference A B x ^^^ (columnDifference A B (x + 4) ^^^ rol (columnDifference A B (x + 1)) 1) := by
  simp only [columnDifference, columnParity_theta, columnEffect, rol_xor]
  ac_rfl

theorem columnParity_eq_of_theta_eq {A B : Lanes} (h : theta A = theta B) (x : Nat) :
    columnParity A x = columnParity B x := by
  have hmix : MixesToItself (columnDifference A B) 1 := fun x => BitVec.xor_eq_zero_iff.1 <| by
    rw [← columnDifference_theta, h, columnDifference, BitVec.xor_self]
  exact BitVec.xor_eq_zero_iff.1 (hmix.eq_zero (columnDifference_periodic A B) x)

theorem theta_injective : Function.Injective theta := by
  refine fun A B h => lanes_ext A B fun x y hx hy => ?_
  have heffect : columnEffect A x = columnEffect B x := by
    simp only [columnEffect, columnParity_eq_of_theta_eq h]
  have hlane : lane A x y ^^^ columnEffect A x = lane B x y ^^^ columnEffect B x := by
    rw [← lane_theta A x y hx hy, ← lane_theta B x y hx hy, h]
  rwa [heffect, BitVec.xor_left_inj] at hlane

/-! ### χ (R228) -/

/-- R228: what χ makes of five bits of a row gives the first of them back. -/
theorem bit_of_chi_bits : ∀ b0 b1 b2 b3 b4 : Bool,
    b0 = ((b0 ^^ (!b1 && b2)) ^^ (!(b1 ^^ (!b2 && b3)) && ((b2 ^^ (!b3 && b4)) ^^ (!(b3 ^^ (!b4 && b0)) &&
      (b4 ^^ (!b0 && b1)))))) := by decide

theorem lane_add_five (A : Lanes) (x y : Nat) : lane A (x + 5) y = lane A x y := by simp [lane]

theorem lane_chi_row (B : Lanes) (x y : Nat) :
    lane (chi B) x y = lane B x y ^^^ (~~~(lane B (x + 1) y) &&& lane B (x + 2) y) := by
  rw [chi, lane_ofGrid]
  simp [lane]

/-- R228: each lane can be read off χ's result. -/
theorem lane_eq_of_chi (B : Lanes) (x y : Nat) :
    lane B x y = lane (chi B) x y ^^^ (~~~(lane (chi B) (x + 1) y) &&&
      (lane (chi B) (x + 2) y ^^^ (~~~(lane (chi B) (x + 3) y) &&& lane (chi B) (x + 4) y))) := by
  simp only [lane_chi_row, Nat.add_assoc, Nat.reduceAdd, lane_add_five]
  ext i hi
  simp only [BitVec.getElem_xor, BitVec.getElem_and, BitVec.getElem_not]
  exact bit_of_chi_bits ..

theorem chi_injective : Function.Injective chi := by
  intro A B h
  refine lanes_ext A B fun x y _ _ => ?_
  rw [lane_eq_of_chi A, lane_eq_of_chi B, h]

/-! ### ι and the permutation (R229 to R232) -/

theorem iota_injective (i : Nat) : Function.Injective fun A => iota A i := by
  intro A B (h : iota A i = iota B i)
  refine Vector.ext fun j hj => ?_
  obtain rfl | hne := eq_or_ne j 0
  · have hlane : A[0] ^^^ keccakRC.getD i 0 = B[0] ^^^ keccakRC.getD i 0 := by
      rw [← iota_get_zero, ← iota_get_zero, h]
    rwa [BitVec.xor_left_inj] at hlane
  · rw [← iota_get_of_ne A i j hj hne, ← iota_get_of_ne B i j hj hne, h]

theorem keccakRound_injective (i : Nat) : Function.Injective fun A => keccakRound A i :=
  (iota_injective i).comp (chi_injective.comp (rhoPi_injective.comp theta_injective))

theorem keccakRounds_injective (n : Nat) : Function.Injective fun A => keccakRounds A n := by
  induction n with
  | zero => exact fun A B h => h
  | succ n ih =>
    simp only [keccakRounds_succ]
    exact (keccakRound_injective n).comp ih

/-- Settles O52: each mapping by its own lemma, and the 24 rounds by induction on their number. -/
theorem keccakPermutationIsInjective : Obligations.KeccakPermutationIsInjective :=
  ⟨fun _ _ h => theta_injective h, fun _ _ h => rhoPi_injective h, fun _ _ h => chi_injective h,
    fun _ _ i h => iota_injective i h, fun _ _ h => keccakRounds_injective 24 h⟩

/-! ### The tables and their formulas (R224, R225, R233) -/

/-- R233: the LFSR gives the whole table of round constants. -/
theorem keccakRC_eq_byFormula : keccakRC = (List.range 24).map keccakRCByFormula := by decide +kernel

/-- R233: the lane at which the walk stands before step t has the offset (t + 1)(t + 2)/2 mod 64. -/
theorem rotOffset_rotWalk : ∀ t < 24, rotOffset (rotWalk t).1 (rotWalk t).2 = (t + 1) * (t + 2) / 2 % 64 := by decide

/-- R233: the walk meets every lane but (0, 0). -/
theorem exists_rotWalk_eq :
    ∀ x < 5, ∀ y < 5, (x, y) ≠ (0, 0) → ∃ t < 24, rotWalk t = (x, y) := by decide

/-- Settles O51: entry i of the table of constants is the formula's value at i, and the walk gives each offset and meets
each lane but (0, 0). -/
theorem keccakTablesFollowFormulas : Obligations.KeccakTablesFollowFormulas := by
  refine ⟨fun i hi => ?constants, rfl, rfl, rotOffset_rotWalk, fun x y hx hy hne => exists_rotWalk_eq x hx y hy hne⟩
  case constants => simp [keccakRC_eq_byFormula, hi]

end Sys2Proof.Machine
end

section
/-! PROOFS. The sponge controller (spec/43_sponge.md): ABSORB byte by byte (R261), the finalize of SHA-3 and SHAKE
(R263, R264), and the reader that READ squeezes (R265 to R268). -/

namespace Sys2Proof.Machine

/-! ### ABSORB (R261) -/

/-- R70: the bytes of a lane are those of its low half and then those of its high half. -/
theorem bytesLE_append (hi lo : Word) : bytesLE 8 (hi ++ lo) = bytesLE 4 lo ++ bytesLE 4 hi := by
  have hlow : ∀ k < 4, byteOf (hi ++ lo) k = byteOf lo k := fun k hk =>
    BitVec.extractLsb'_append_eq_of_add_le (by omega)
  have hhigh : ∀ k, byteOf (hi ++ lo) (4 + k) = byteOf hi k := fun k => by
    rw [byteOf, BitVec.extractLsb'_append_eq_of_le (by omega), byteOf, show 8 * (4 + k) - 32 = 8 * k by omega]
  have hrange : List.range 8 = List.range 4 ++ (List.range 4).map (4 + ·) := rfl
  rw [bytesLE, hrange, List.map_append, List.map_map]
  exact congrArg₂ _ (List.map_congr_left fun k hk => hlow k (List.mem_range.1 hk))
    (List.map_congr_left fun k _ => hhigh k)

/-- R14, R70: LE64 and the little-endian bytes are inverse. -/
theorem bytesLE_le64 (b0 b1 b2 b3 b4 b5 b6 b7 : Byte) :
    bytesLE 8 (le64 b0 b1 b2 b3 b4 b5 b6 b7) = [b0, b1, b2, b3, b4, b5, b6, b7] := by
  rw [le64, bytesLE_append, bytesLE_le32, bytesLE_le32]
  rfl

/-- R261: byte k of lane i of a block is byte 8i + k of the block. -/
theorem byteOf_laneAt (b : List Byte) (i : Nat) {k : Nat} (hk : k < 8) :
    byteOf (laneAt b i) k = b.getD (8 * i + k) 0 := by
  have hbytes : bytesLE 8 (laneAt b i) = (List.range 8).map fun k => b.getD (8 * i + k) 0 := bytesLE_le64 ..
  exact List.map_inj_left.1 hbytes k (List.mem_range.2 hk)

theorem byteOf_xor {w : Nat} (u v : BitVec w) (k : Nat) : byteOf (u ^^^ v) k = byteOf u k ^^^ byteOf v k :=
  BitVec.extractLsb'_xor

/-- R261: lane i of the state after the XOR. -/
theorem getElem_xorBlock (cap : Nat) (S : Lanes) (b : List Byte) (i : Nat) (hi : i < 25) :
    (xorBlock cap S b)[i] = if i < cap / 8 then S[i] ^^^ laneAt b i else S[i] := by
  rw [xorBlock, Vector.getElem_ofFn]
  rfl

/-- R39: a byte of the state is a byte of the lane it lies in. -/
theorem stateByte_eq (S : Lanes) {j : Nat} (hj : j < 200) : stateByte S j = byteOf S[j / 8] (j % 8) :=
  ((stateByteView S).2 j hj).2

/-- R261: a byte of the state after the XOR. CAP is a whole number of lanes, so the lane of byte j is among the leading
ones exactly when j is below CAP. -/
theorem stateByte_xorBlock {cap : Nat} (hcap : cap % 8 = 0) (S : Lanes) (b : List Byte) {j : Nat} (hj : j < 200) :
    stateByte (xorBlock cap S b) j = if j < cap then stateByte S j ^^^ b.getD j 0 else stateByte S j := by
  have hlane : j / 8 < cap / 8 ↔ j < cap := by omega
  rw [stateByte_eq _ hj, stateByte_eq _ hj, getElem_xorBlock, apply_ite (byteOf · (j % 8)), byteOf_xor,
    byteOf_laneAt _ _ (Nat.mod_lt j (by decide)), Nat.div_add_mod]
  simp only [hlane]

/-- Settles O53: the first clause is ABSORB itself; the other two are a byte of the state below CAP and one above. -/
theorem absorbXorsLeadingBytes : Obligations.AbsorbXorsLeadingBytes := by
  intro a S b hlen
  have hcap := cap_le a
  refine ⟨rfl, fun j h => ?_, fun j hge hj => ?_⟩
  · rw [stateByte_xorBlock (cap_mod_eight a) S b (by omega), if_pos (by omega), List.getD_eq_getElem _ _ h]
  · rw [stateByte_xorBlock (cap_mod_eight a) S b hj, if_neg (by omega)]

/-! ### FINAL under SHA-3 and FINAL_XOF under SHAKE (R263, R264) -/

/-- R8: the pad byte of SHA-3. -/
theorem pad_of_fixed {a : Alg} (h : a.kind = .fixed) : a.pad = 0x06 := by
  revert h
  cases a <;> decide

/-- R8: the pad byte of SHAKE. -/
theorem pad_of_xof {a : Alg} (h : a.kind = .xof) : a.pad = 0x1F := by
  revert h
  cases a <;> decide

/-- R147, R263, R264: under a sponge a finalize absorbs the one padding block. -/
theorem finalPad_s_of_sponge {c : Context} (hsponge : c.alg.kind ≠ .md) (hfill : c.fill.toNat < c.alg.cap) :
    (finalPad c).s = absorb c.alg.cap c.s (padWithBlock c.alg.cap c.alg.pad (bufHead c c.fill.toNat)) := by
  rw [finalPad_eq hfill, finalBlocks, if_neg hsponge, List.foldl_cons, List.foldl_nil, block_sponge _ _ hsponge]

/-- R263: a sponge's digest is the leading OUTLEN bytes of its state. -/
theorem digestOf_of_sponge {c : Context} (hsponge : c.alg.kind ≠ .md) :
    digestOf c = (stateBytes c.s).take c.alg.outLen := by
  rw [digestOf, if_neg hsponge, map_stateByte_range _ ((outLen_le _).trans (by decide))]

/-- R310: FINAL under SHA-3 runs its body. -/
theorem exec_final_of_fixed {s : State} (h : s.ctx.alg.kind = .fixed) : exec .final s = .next (finalBody s) := by
  obtain ⟨hnone, _⟩ | ⟨hxof, _⟩ | ⟨_, _, hexec⟩ := execFinal_cases s
  · simp [hnone, Alg.kind] at h
  · simp [hxof] at h
  · exact hexec

/-- R315: FINAL_XOF under SHAKE runs its body. -/
theorem exec_finalXof_of_xof {s : State} (h : s.ctx.alg.kind = .xof) :
    exec .finalXof s = .next (finalXofBody s) := by
  obtain ⟨hnone, _⟩ | ⟨_, hother, _⟩ | ⟨_, hexec⟩ := execFinalXof_cases s
  · simp [hnone, Alg.kind] at h
  · exact absurd h hother
  · exact hexec

/-- R311, R312: FINAL leaves the context as INIT of its algorithm does. -/
theorem freshContext_finalBody (s : State) : FreshContext s.ctx.alg (finalBody s).ctx :=
  ⟨finalPad_alg s.ctx, rfl, rfl, rfl, rfl⟩

/-- R316: FINAL_XOF leaves the context as INIT of its algorithm does. -/
theorem freshContext_finalXofBody (s : State) : FreshContext s.ctx.alg (finalXofBody s).ctx :=
  ⟨finalPad_alg s.ctx, rfl, rfl, rfl, rfl⟩

/-- Settles O36: FINAL runs its body, whose digest is read off the state that has absorbed the padding block. -/
theorem finalEmitsSha3Digest : Obligations.FinalEmitsSha3Digest := by
  intro s hkind hfill
  have hsponge : s.ctx.alg.kind ≠ .md := by simp [hkind]
  refine ⟨_, exec_final_of_fixed hkind, ?_, freshContext_finalBody s, rfl, rfl, rfl, rfl, rfl, rfl⟩
  rw [finalBody_out, digestOf_of_sponge (by rwa [finalPad_alg]), finalPad_s_of_sponge hsponge hfill, finalPad_alg,
    pad_of_fixed hkind]

/-- Settles O37: FINAL_XOF runs its body, whose reader is made of the context that has absorbed the padding block. -/
theorem finalXofCreatesReader : Obligations.FinalXofCreatesReader := by
  intro s hkind hfill
  have hsponge : s.ctx.alg.kind ≠ .md := by simp [hkind]
  obtain ⟨_, hrate, _⟩ := (readerInv_newReader (c := finalPad s.ctx) (by rwa [finalPad_alg])).1 rfl
  refine ⟨_, exec_finalXof_of_xof hkind, rfl, finalPad_alg s.ctx, hrate.trans (congrArg _ (finalPad_alg s.ctx)), rfl,
    (finalPad_s_of_sponge hsponge hfill).trans ?_, freshContext_finalXofBody s, rfl, rfl, rfl, rfl, rfl, rfl⟩
  rw [pad_of_xof hkind]

/-! ### READ and the reader's stream (R266 to R268) -/

/-- R266: at the end of the window a byte costs a permutation. -/
theorem squeezeByte_of_exhausted {r : Reader} (h : r.pos = r.rate) :
    squeezeByte r = (stateByte (keccakF r.rs) 0, { r with rs := keccakF r.rs, pos := 1 }) := by
  rw [squeezeByte, refill, if_pos h]
  rfl

/-- R266: within the window the byte at the cursor is next. -/
theorem squeezeByte_of_available {r : Reader} (h : r.pos ≠ r.rate) :
    squeezeByte r = (stateByte r.rs r.pos.toNat, { r with pos := r.pos + 1 }) := by
  rw [squeezeByte, refill, if_neg h]

/-- Settles O40: READ runs its body, each field of which is known; a turn of its loop is one of the two kinds of
byte. -/
theorem readEmitsNextBytes : Obligations.ReadEmitsNextBytes := by
  refine ⟨fun n s hv => ⟨_, exec_read_of_valid hv n, rfl, rfl, ?_, ?_, ?_, ?_, rfl, rfl, rfl, rfl, rfl, rfl⟩,
    fun k r => ⟨fun hend => ?_, fun hmid => ?_⟩⟩
  · rw [readBody_out, List.length_append, squeeze_length]
  · rw [readBody_reader, squeeze_valid, hv]
  · rw [readBody_reader, squeeze_alg]
  · rw [readBody_reader, squeeze_rate]
  · rw [squeeze_succ, squeezeByte_of_exhausted hend]
  · rw [squeeze_succ, squeezeByte_of_available hmid]

/-- R267: the cursor after byte k of the stream has been read; it is at the end of the window after its last byte, since
the permutation waits for the next byte (R262). -/
theorem StreamAt.squeezeByte_pos {rs0 : Lanes} {k : Nat} {r : Reader} (h : StreamAt rs0 k r)
    (hrate : 0 < r.rate.toNat) : (Machine.squeezeByte r).2.pos.toNat = k % r.rate.toNat + 1 := by
  obtain ⟨⟨q, _, hk, _⟩, hlt⟩ := h.refill hrate
  have hsmall := r.rate.isLt
  rw [hk, refill_rate, Nat.mul_add_mod, Nat.mod_eq_of_lt hlt]
  exact BitVec.toNat_add_of_lt (by simp; omega)

/-- Settles O41: the stream is that of `squeeze_of_fresh`, and the last byte read says where the cursor is. -/
theorem readerStream : Obligations.ReaderStream := by
  intro r n hpos hrate
  refine ⟨squeeze_of_fresh hpos hrate n, ?_⟩
  cases n with
  | zero => simp [hpos]
  | succ n =>
    have hstands := ((streamAt_zero hpos).squeeze hrate n).2
    rw [Nat.zero_add] at hstands
    have hlast := hstands.squeezeByte_pos (by simpa using hrate)
    rw [squeeze_rate] at hlast
    rw [squeeze_add n 1, if_neg n.succ_ne_zero, Nat.add_sub_cancel]
    exact hlast

/-- Settles O42: continuity is `squeeze_add`, the induction on the bytes of the first reading. -/
theorem squeezeContinuity : Obligations.SqueezeContinuity := squeeze_add

end Sys2Proof.Machine
end

section
/-! PROOFS. The commands (spec/44_commands.md): INIT (R301), UPDATE and its body (R305 to R307), FINAL (R310 to R312),
the errors of FINAL, FINAL_XOF and READ (R310, R315, R320), and what they keep apart (R321). -/

namespace Sys2Proof.Machine

/-! ### INIT (R301) -/

/-- R106: each of the codes 1 to 7 selects an algorithm. -/
theorem exists_algOfArg_eq_some {arg : BitVec 8} (h1 : 1 ≤ arg.toNat) (h7 : arg.toNat ≤ 7) :
    ∃ a, algOfArg arg = some a := by
  have hcodes : arg = 1 ∨ arg = 2 ∨ arg = 3 ∨ arg = 4 ∨ arg = 5 ∨ arg = 6 ∨ arg = 7 := by bv_omega
  obtain rfl | rfl | rfl | rfl | rfl | rfl | rfl := hcodes <;> exact ⟨_, rfl⟩

/-- R106: the algorithm that INIT selects has the code in ARG. -/
theorem code_toNat_of_algOfArg {arg : BitVec 8} {a : Alg} (h : algOfArg arg = some a) :
    a.code.toNat = arg.toNat := by
  obtain ⟨_, rfl⟩ := (algOfArg_eq_some_iff arg a).1 h
  exact (BitVec.toNat_setWidth_of_le (by decide)).symm

/-- Settles O22: the code selects an algorithm, and INIT then runs `reinit`, each field of which is known. -/
theorem initSelectsAlgorithm : Obligations.InitSelectsAlgorithm := by
  intro arg s h1 h7
  obtain ⟨a, ha⟩ := exists_algOfArg_eq_some h1 h7
  refine ⟨_, exec_init_of_algOfArg ha s, code_toNat_of_algOfArg ha, rfl, rfl, rfl, fun i => ?_, rfl, rfl, rfl, rfl, rfl,
    rfl, rfl⟩
  rw [reinit_ctx_s]
  exact Vector.getElem_replicate _

/-! ### The errors that a command's state decides (R305, R310, R315, R320) -/

theorem exec_update_of_none {s : State} (h : s.ctx.alg = .none) (n : BitVec 16) :
    exec (.update n) s = .next (raiseError .notConfigured (headerOf 2 0 n) s) := by
  simp only [exec, execUpdate, h, if_true, encode]

theorem exec_update_of_overflow {s : State} (halg : s.ctx.alg ≠ .none) {n : BitVec 16}
    (h : lenMax s.ctx.alg.kind < s.ctx.len.toNat + n.toNat) :
    exec (.update n) s = .next (raiseError .lenOverflow (headerOf 2 0 n) s) := by
  simp only [exec, execUpdate, halg, (lenOverflows_iff s.ctx n).2 h, if_false, if_true, encode]

/-- R8: an algorithm that is not RIPEMD-160 is a sponge. -/
theorem kind_fixed_or_xof {a : Alg} (hnone : a ≠ .none) (hmd : a.kind ≠ .md) : a.kind = .fixed ∨ a.kind = .xof := by
  cases a <;> simp [Alg.kind] at hnone hmd ⊢

/-- R9: the limit of a sponge. -/
theorem lenMax_of_sponge {a : Alg} (h : a.kind = .fixed ∨ a.kind = .xof) : lenMax a.kind = 2 ^ 64 - 1 := by
  obtain h | h := h <;> rw [h] <;> rfl

/-- Settles O25: the limit of R9 is 2^61 − 1 for RIPEMD-160 and 2^64 − 1 for every other algorithm. -/
theorem updateHeaderErrors : Obligations.UpdateHeaderErrors := by
  intro n s
  refine ⟨fun hnone => exec_update_of_none hnone n, fun hmd hover => ?_, fun hnone hmd hover => ?_⟩
  · have hmax : lenMax s.ctx.alg.kind = 2 ^ 61 - 1 := by rw [hmd]; rfl
    exact exec_update_of_overflow (by simp [hmd]) (hmax ▸ hover)
  · have hmax := lenMax_of_sponge (kind_fixed_or_xof hnone (mt (kind_eq_md_iff _).1 hmd))
    exact exec_update_of_overflow hnone (hmax ▸ hover)

/-- Settles O38: each clause is the one case of the command's meaning that its premise leaves. -/
theorem finalizeAndReadErrors : Obligations.FinalizeAndReadErrors := by
  intro s
  refine ⟨fun hnone => ⟨?_, ?_⟩, fun hxof => ?_, fun hkind => ?_, fun n hv => ?_⟩
  · simp only [exec, execFinal, hnone, if_true]
    rfl
  · simp only [exec, execFinalXof, hnone, if_true]
    rfl
  · have halg : s.ctx.alg ≠ .none := mt (kind_eq_none_iff _).2 (by simp [hxof])
    simp only [exec, execFinal, halg, hxof, if_false, if_true]
    rfl
  · have halg : s.ctx.alg ≠ .none := mt (kind_eq_none_iff _).2 (by obtain h | h := hkind <;> simp [h])
    have hxof : s.ctx.alg.kind ≠ .xof := by obtain h | h := hkind <;> simp [h]
    simp only [exec, execFinalXof, halg, hxof, if_false, if_true, ne_eq, not_false_eq_true]
    rfl
  · simp only [exec, execRead, hv, Bool.false_eq_true, if_false, encode]

/-! ### UPDATE_BODY (R306) -/

theorem block_withLen (c : Context) (n : BitVec 64) (b : List Byte) :
    block { c with len := n } b = { block c b with len := n } := by
  unfold block
  split <;> rfl

theorem processByte_withLen (c : Context) (n : BitVec 64) (d : Byte) :
    processByte { c with len := n } d = { processByte c d with len := n } := by
  have hpush : pushByte { c with len := n } d = { pushByte c d with len := n } := rfl
  rw [processByte_eq, processByte_eq, hpush]
  split
  · unfold emptyFull
    rw [block_withLen]
    rfl
  · rfl

/-- R143: `process` does not read LEN. -/
theorem process_withLen (ds : List Byte) (c : Context) (n : BitVec 64) :
    process ds { c with len := n } = { process ds c with len := n } := by
  induction ds generalizing c with
  | nil => rfl
  | cons d ds ih => rw [process_cons, process_cons, processByte_withLen, ih]

/-- R306: the context of UPDATE_BODY before the bytes above FILL are forgotten: LEN counts the data and `process` takes
it. -/
def countAndProcess (data : List Byte) (c : Context) : Context :=
  process data { c with len := c.len + BitVec.ofNat 64 data.length }

theorem updateBody_eq (data : List Byte) (s : State) :
    updateBody data s = forgetStale { s with ctx := countAndProcess data s.ctx } := rfl

theorem countAndProcess_eq (data : List Byte) (c : Context) :
    countAndProcess data c = { process data c with len := c.len + BitVec.ofNat 64 data.length } :=
  process_withLen data c _

@[simp] theorem countAndProcess_alg (data : List Byte) (c : Context) : (countAndProcess data c).alg = c.alg :=
  process_alg data _

@[simp] theorem countAndProcess_nil (c : Context) : countAndProcess [] c = c := by
  simp [countAndProcess]

/-- R307: bytes counted and processed in two parts are those bytes at once. -/
theorem countAndProcess_append (ds es : List Byte) (c : Context) :
    countAndProcess (ds ++ es) c = countAndProcess es (countAndProcess ds c) := by
  simp only [countAndProcess_eq, process_append, process_withLen, List.length_append, BitVec.ofNat_add,
    BitVec.add_assoc]

/-- Settles O29: `process` neither reads nor writes LEN, and within LEN_MAX the sum does not wrap. -/
theorem updateBodyCountsAndProcesses : Obligations.UpdateBodyCountsAndProcesses := by
  intro data s _ _ hlen t d
  have ht : t = forgetStale { s with ctx := { d with len := s.ctx.len + BitVec.ofNat 64 data.length } } := by
    rw [← countAndProcess_eq, ← updateBody_eq]
  have hmax := lenMax_lt s.ctx.alg.kind
  have hsum : (s.ctx.len + BitVec.ofNat 64 data.length).toNat = s.ctx.len.toNat + data.length := by
    rw [BitVec.toNat_add, BitVec.toNat_ofNat]
    omega
  rw [ht]
  exact ⟨hsum, process_alg data s.ctx, rfl, rfl, rfl, forgetStale_bufHead _, rfl, rfl, rfl, rfl, rfl, rfl, rfl⟩

/-! ### Any split of a message (R307) -/

theorem SameProgress.refl (c : Context) : SameProgress c c := ⟨rfl, rfl, rfl, rfl, rfl, rfl⟩

theorem SameProgress.symm {c d : Context} (h : SameProgress c d) : SameProgress d c := by
  obtain ⟨halg, hfill, hlen, hbuf, hh, hs⟩ := h
  exact ⟨halg.symm, hfill.symm, hlen.symm, hbuf.symm, hh.symm, hs.symm⟩

theorem SameProgress.trans {c d e : Context} (h : SameProgress c d) (h' : SameProgress d e) : SameProgress c e := by
  obtain ⟨halg, hfill, hlen, hbuf, hh, hs⟩ := h
  obtain ⟨halg', hfill', hlen', hbuf', hh', hs'⟩ := h'
  exact ⟨halg.trans halg', hfill.trans hfill', hlen.trans hlen', hbuf.trans hbuf', hh.trans hh', hs.trans hs'⟩

/-- R33: the same progress is the same of what is visible, and of H and S also where ALG does not use them. -/
theorem sameProgress_iff {c d : Context} :
    SameProgress c d ↔ SameVisibleContext c d ∧ c.h = d.h ∧ c.s = d.s := by
  constructor
  · rintro ⟨halg, hfill, hlen, hbuf, hh, hs⟩
    refine ⟨⟨halg, hfill, hlen, fun i hi => ?_, fun _ => hh, fun _ => hs⟩, hh, hs⟩
    have hget := congrArg (·[i.val]?) hbuf
    simpa [bufHead, List.getElem?_take_of_lt, hi, hfill ▸ hi] using hget
  · rintro ⟨hvis, hh, hs⟩
    refine ⟨hvis.alg_eq, hvis.fill_eq, hvis.len_eq, ?_, hh, hs⟩
    rw [← hvis.fill_eq]
    exact hvis.bufHead_eq (Nat.le_refl _)

/-- R307: the same bytes keep the progress the same; what ALG does not use of H and S they do not write. -/
theorem SameProgress.process {c d : Context} (h : SameProgress c d) (halg : c.alg ≠ .none) (data : List Byte) :
    SameProgress (process data c) (process data d) := by
  obtain ⟨hvis, hh, hs⟩ := sameProgress_iff.1 h
  have hvis' := hvis.process data
  refine sameProgress_iff.2 ⟨hvis', ?_⟩
  obtain ⟨_, _, _, _, hh', hs'⟩ := hvis'
  rw [process_alg] at hh' hs'
  have hd : d.alg = c.alg := hvis.alg_eq.symm
  by_cases hmd : c.alg.kind = .md
  · refine ⟨hh' hmd, ?_⟩
    rw [process_s_of_md data c hmd, process_s_of_md data d (hd ▸ hmd), hs]
  · refine ⟨?_, hs' (kind_fixed_or_xof halg hmd)⟩
    rw [process_h_of_sponge data c hmd, process_h_of_sponge data d (hd ▸ hmd), hh]

theorem SameProgress.countAndProcess {c d : Context} (h : SameProgress c d) (halg : c.alg ≠ .none)
    (data : List Byte) : SameProgress (countAndProcess data c) (countAndProcess data d) := by
  obtain ⟨hca, hfill, hlen, hbuf, hh, hs⟩ := h
  have hcount : SameProgress { c with len := c.len + BitVec.ofNat 64 data.length }
      { d with len := d.len + BitVec.ofNat 64 data.length } := ⟨hca, hfill, by simp only [hlen], hbuf, hh, hs⟩
  exact hcount.process halg data

/-- R33: forgetting the bytes above FILL is no progress. -/
theorem sameProgress_forgetStale (s : State) : SameProgress (forgetStale s).ctx s.ctx :=
  ⟨rfl, rfl, rfl, forgetStale_bufHead s, rfl, rfl⟩

/-- R306, R110: one chunk, empty or not. -/
theorem sameProgress_feed_singleton (m : List Byte) (s : State) :
    SameProgress (feed [m] s).ctx (countAndProcess m s.ctx) := by
  rw [feed_singleton]
  split
  next hnil =>
    rw [hnil, countAndProcess_nil]
    exact .refl _
  next =>
    rw [updateBody_eq]
    exact sameProgress_forgetStale _

/-- R307: chunks leave the progress of their bytes taken at once. -/
theorem sameProgress_feed {s : State} (halg : s.ctx.alg ≠ .none) (ms : List (List Byte)) :
    SameProgress (feed ms s).ctx (countAndProcess ms.flatten s.ctx) := by
  induction ms generalizing s with
  | nil => simpa using SameProgress.refl s.ctx
  | cons m ms ih =>
    have halg' : (feed [m] s).ctx.alg ≠ .none := by rwa [feed_ctx_alg]
    rw [feed_cons, List.flatten_cons, countAndProcess_append]
    exact (ih halg').trans ((sameProgress_feed_singleton m s).countAndProcess halg' ms.flatten)

/-- Settles O30: either split leaves the progress of the whole message. -/
theorem streamingInvariance : Obligations.StreamingInvariance := by
  intro ms ns s halg hflat
  exact (sameProgress_feed halg ms).trans (hflat ▸ (sameProgress_feed halg ns).symm)

/-! ### FINAL (R311, R312) -/

/-- R310: FINAL under an algorithm that it accepts runs its body. -/
theorem exec_final_of_accepted {s : State} (halg : s.ctx.alg ≠ .none) (hxof : s.ctx.alg.kind ≠ .xof) :
    exec .final s = .next (finalBody s) := by
  simp only [exec, execFinal, halg, hxof, if_false]

/-- R201: LEN × 8 is LEN shifted by three bits. -/
theorem bitLength_eq_shiftLeft (c : Context) : bitLength c = c.len <<< 3 := by
  apply BitVec.eq_of_toNat_eq
  rw [bitLength, BitVec.toNat_ofNat, BitVec.toNat_shiftLeft, Nat.shiftLeft_eq]
  omega

/-- R201: within the limit of RIPEMD-160 the bit length is exact. -/
theorem toNat_shiftLeft_three {len : BitVec 64} (h : len.toNat ≤ 2 ^ 61 - 1) : (len <<< 3).toNat = 8 * len.toNat := by
  rw [BitVec.toNat_shiftLeft, Nat.shiftLeft_eq]
  omega

/-- R201, R311: under RIPEMD-160 the padding's blocks are compressed into H. -/
theorem finalPad_h_of_md {c : Context} (hmd : c.alg.kind = .md) (hfill : c.fill.toNat < c.alg.cap) :
    (finalPad c).h = (lengthPadBlocks c.alg.cap (bufHead c c.fill.toNat) (bitLength c)).foldl rmdCompress c.h := by
  rw [finalPad_eq hfill, finalBlocks, if_pos hmd]
  exact foldl_block_h hmd _

theorem digestOf_of_md {c : Context} (hmd : c.alg.kind = .md) : digestOf c = rmdDigest c.h := by
  rw [digestOf, if_pos hmd]

/-- R202: the digest word by word. -/
theorem rmdDigest_eq (h : Chain) :
    rmdDigest h = bytesLE 4 h[0] ++ bytesLE 4 h[1] ++ bytesLE 4 h[2] ++ bytesLE 4 h[3] ++ bytesLE 4 h[4] := by
  have hwords : h.toList = [h[0], h[1], h[2], h[3], h[4]] :=
    List.ext_getElem (by simp) fun i hi _ => by
      have : i < 5 := by simpa using hi
      interval_cases i <;> simp
  simp [rmdDigest, hwords]

/-- Settles O35: FINAL runs its body, whose digest is read off the chaining words after the padding's blocks. -/
theorem finalEmitsRipemdDigest : Obligations.FinalEmitsRipemdDigest := by
  intro s halg hfill hlen
  have hmd : s.ctx.alg.kind = .md := (kind_eq_md_iff _).2 halg
  have hcap : s.ctx.alg.cap = 64 := by rw [halg]; rfl
  refine ⟨_, exec_final_of_accepted (by simp [halg]) (by simp [hmd]), fun h hh => ?_, toNat_shiftLeft_three hlen,
    halg ▸ freshContext_finalBody s, rfl, rfl, rfl, rfl, rfl, rfl⟩
  rw [finalBody_out, digestOf_of_md (by rwa [finalPad_alg]), finalPad_h_of_md hmd (hcap ▸ hfill), hcap,
    bitLength_eq_shiftLeft, ← hh, rmdDigest_eq]
  simp only [List.append_assoc]

/-- R312: two initial contexts of one algorithm stand at the same place. -/
theorem FreshContext.sameProgress {a : Alg} {c d : Context} (hc : FreshContext a c) (hd : FreshContext a d) :
    SameProgress c d := by
  obtain ⟨halg, hfill, hlen, hh, hs⟩ := hc
  obtain ⟨halg', hfill', hlen', hh', hs'⟩ := hd
  exact ⟨halg.trans halg'.symm, hfill.trans hfill'.symm, hlen.trans hlen'.symm, by simp [bufHead, hfill, hfill'],
    hh.trans hh'.symm, hs.trans hs'.symm⟩

/-- Settles O39: FINAL and INIT both leave an initial context of ALG. -/
theorem finalLeavesContextOfInit : Obligations.FinalLeavesContextOfInit := by
  intro s t u halg hxof hfinal hinit
  cases (exec_final_of_accepted halg hxof).symm.trans hfinal
  cases (exec_init_of_algOfArg (algOfArg_code halg) s).symm.trans hinit
  have hinitial : FreshContext s.ctx.alg (reinit s).ctx := ⟨rfl, rfl, rfl, rfl, rfl⟩
  exact ⟨(freshContext_finalBody s).sameProgress hinitial, rfl, rfl, rfl, rfl⟩

/-! ### The context and the reader are independent (R42, R321) -/

theorem exec_read_ctx {n : BitVec 16} {s t : State} (h : exec (.read n) s = .next t) : t.ctx = s.ctx := by
  obtain ⟨_, hx⟩ | ⟨_, hx⟩ := execRead_cases n s <;> cases hx.symm.trans h <;> rfl

/-- R42: only FINAL_XOF and READ write the reader slot. -/
theorem exec_reader {i : Instr} {s t : State} (hxof : i ≠ .finalXof) (hread : ∀ n, i ≠ .read n)
    (h : exec i s = .next t) : t.reader = s.reader := by
  cases i with
  | init arg =>
    obtain ⟨_, hx⟩ | ⟨_, _, hx⟩ := execInit_cases arg s <;> cases hx.symm.trans h <;> rfl
  | update n =>
    obtain ⟨_, hx⟩ | ⟨_, _, hx⟩ | ⟨_, _, _, hx⟩ | ⟨_, _, _, hx⟩ := execUpdate_cases n s <;>
      cases hx.symm.trans h <;> rfl
  | final =>
    obtain ⟨_, hx⟩ | ⟨_, hx⟩ | ⟨_, _, hx⟩ := execFinal_cases s <;> cases hx.symm.trans h <;> rfl
  | finalXof => exact absurd rfl hxof
  | read n => exact absurd rfl (hread n)

theorem payloadWord_reader (w : Word) (s : State) : (payloadWord w s).reader = s.reader := by
  obtain ⟨_, hx⟩ | ⟨_, hx⟩ := payloadWord_cases w s <;> exact (congrArg State.reader hx).trans rfl

/-- Settles O44: the frames of READ, of the commands that make no reader, and of a payload word. -/
theorem contextAndReaderIndependent : Obligations.ContextAndReaderIndependent :=
  ⟨fun _ _ _ => exec_read_ctx, fun _ _ _ => exec_reader, payloadWord_reader⟩

end Sys2Proof.Machine
end

section
/-! PROOFS. Errors and the halted state (spec/60_exceptions.md): the checks of a header in their order (R341, R343), error
entry (R340, R345), what a halted engine still does (R342, R344), idleness (R363) and the copies on a platform (R361). -/

namespace Sys2Proof.Machine

/-! ### The first check that a header fails (R341, R343) -/

/-- R343: the check at the head of a list is reported before those behind it. -/
theorem firstFailed_cons (failed : Bool) (c : Cause) (checks : List (Bool × Cause)) :
    ((((failed, c) :: checks).find? fun p => p.1).map fun p => p.2) =
      if failed then some c else (checks.find? fun p => p.1).map fun p => p.2 := by
  cases failed <;> rfl

/-- R109: an opcode that no command has fails the first check of all. -/
theorem headerError_of_illegalOpcode {w : Word} (h : (opcField w).toNat < 1 ∨ 5 < (opcField w).toNat) (s : State) :
    headerError w s = some .illegalOpcode := by
  simp only [headerError, headerChecks, firstFailed_cons, h, decide_true, if_true]

/-- R108: the checks on the fields that an opcode reserves come before every check on the state. -/
theorem headerError_of_reservedNonzero {w : Word}
    (h : (opcField w = 1 ∧ nField w ≠ 0) ∨ ((opcField w = 2 ∨ opcField w = 5) ∧ argField w ≠ 0) ∨
      ((opcField w = 3 ∨ opcField w = 4) ∧ (argField w ≠ 0 ∨ nField w ≠ 0)))
    (s : State) : headerError w s = some .reservedNonzero := by
  simp only [ne_eq, ← BitVec.toNat_inj (x := argField w), ← BitVec.toNat_inj (x := nField w)] at h
  simp only [headerError, headerChecks, firstFailed_cons]
  obtain ⟨hopc, hn⟩ | ⟨hopc | hopc, harg⟩ | ⟨hopc | hopc, harg | hn⟩ := h <;> simp_all

/-- R103: the decoder rejects a word for the first of its checks on OPC and the reserved fields. -/
theorem headerError_of_reject {w : Word} {why : Reject} (h : decode w = .reject why) (s : State) :
    headerError w s = some (rejectCause why) := by
  unfold decode at h
  split_ifs at h <;> cases h
  case neg => exact headerError_of_illegalOpcode (by bv_omega) s
  all_goals exact headerError_of_reservedNonzero (by tauto) s

/-- R106: an ARG selects an algorithm unless it is 0 or above 7. -/
theorem algOfArg_eq_none_iff (arg : BitVec 8) : algOfArg arg = none ↔ arg.toNat = 0 ∨ 7 < arg.toNat := by
  refine ⟨fun h => ?_, algOfArg_eq_none⟩
  unfold algOfArg at h
  split_ifs at h
  bv_omega

theorem ne_none_of_xof {a : Alg} (h : a.kind = .xof) : a ≠ .none := by
  rintro rfl
  cases h

/-- R103, R106: with its reserved field 0, INIT can fail only the check on ARG. -/
theorem headerError_init (arg : BitVec 8) (s : State) :
    headerError (encode (.init arg)) s = if algOfArg arg = none then some .badAlg else none := by
  simp only [headerError, headerChecks, firstFailed_cons]
  simp [encode, algOfArg_eq_none_iff]

/-- R103, R305. -/
theorem headerError_update (n : BitVec 16) (s : State) :
    headerError (encode (.update n)) s =
      if s.ctx.alg = .none then some .notConfigured
      else if lenMax s.ctx.alg.kind < s.ctx.len.toNat + n.toNat then some .lenOverflow else none := by
  simp only [headerError, headerChecks, firstFailed_cons]
  simp [encode]

/-- R103, R310. -/
theorem headerError_final (s : State) :
    headerError (encode .final) s =
      if s.ctx.alg = .none then some .notConfigured
      else if s.ctx.alg.kind = .xof then some .wrongFinalize else none := by
  simp only [headerError, headerChecks, firstFailed_cons]
  simp [encode]

/-- R103, R315. -/
theorem headerError_finalXof (s : State) :
    headerError (encode .finalXof) s =
      if s.ctx.alg = .none then some .notConfigured
      else if s.ctx.alg.kind ≠ .xof then some .wrongFinalize else none := by
  simp only [headerError, headerChecks, firstFailed_cons]
  simp [encode]

/-- R103, R320. -/
theorem headerError_read (n : BitVec 16) (s : State) :
    headerError (encode (.read n)) s = if s.reader.valid = false then some .noReader else none := by
  simp only [headerError, headerChecks, firstFailed_cons]
  simp [encode]

/-- R340, R341: what a word does when its first failed check is `e`: error entry with that cause and the word itself or,
when it fails none, a step that leaves the error state alone. -/
def AnswersError (e : Option Cause) (w : Word) (s : State) (x : Host.Outcome State Fault Refusal) : Prop :=
  match e with
  | some c => x = .next (raiseError c w s)
  | none => ∃ t, x = .next t ∧ t.err = s.err

/-- R341, R343: command by command, each case of its meaning is one case of its checks. -/
theorem exec_answersError (i : Instr) (s : State) :
    AnswersError (headerError (encode i) s) (encode i) s (exec i s) := by
  cases i with
  | init arg =>
    rw [headerError_init]
    obtain ⟨hnone, hx⟩ | ⟨a, hsome, hx⟩ := execInit_cases arg s
    · rw [if_pos hnone]; exact hx
    · rw [if_neg (by simp [hsome])]; exact ⟨_, hx, rfl⟩
  | update n =>
    rw [headerError_update]
    obtain ⟨halg, hx⟩ | ⟨halg, hlen, hx⟩ | ⟨halg, hlen, _, hx⟩ | ⟨halg, hlen, _, hx⟩ := execUpdate_cases n s
    · rw [if_pos halg]; exact hx
    · rw [if_neg halg, if_pos hlen]; exact hx
    · rw [if_neg halg, if_neg hlen.not_gt]; exact ⟨_, hx, rfl⟩
    · rw [if_neg halg, if_neg hlen.not_gt]; exact ⟨_, hx, rfl⟩
  | final =>
    rw [headerError_final]
    obtain ⟨halg, hx⟩ | ⟨hxof, hx⟩ | ⟨halg, hxof, hx⟩ := execFinal_cases s
    · rw [if_pos halg]; exact hx
    · rw [if_neg (ne_none_of_xof hxof), if_pos hxof]; exact hx
    · rw [if_neg halg, if_neg hxof]; exact ⟨_, hx, rfl⟩
  | finalXof =>
    rw [headerError_finalXof]
    obtain ⟨halg, hx⟩ | ⟨halg, hxof, hx⟩ | ⟨hxof, hx⟩ := execFinalXof_cases s
    · rw [if_pos halg]; exact hx
    · rw [if_neg halg, if_pos hxof]; exact hx
    · rw [if_neg (ne_none_of_xof hxof), if_neg (not_not_intro hxof)]; exact ⟨_, hx, rfl⟩
  | read n =>
    rw [headerError_read]
    obtain ⟨hv, hx⟩ | ⟨hv, hx⟩ := execRead_cases n s
    · rw [if_pos hv]; exact hx
    · rw [if_neg (by simp [hv])]; exact ⟨_, hx, rfl⟩

/-- R343: the decoder's checks come first, in the list as in the engine. -/
theorem headerWord_answersError (w : Word) (s : State) : AnswersError (headerError w s) w s (headerWord w s) := by
  obtain ⟨i, hdec, hw⟩ | ⟨why, hdec, hw⟩ := headerWord_cases w s
  · rw [hw, (decode_eq_command_iff w i).1 hdec]
    exact exec_answersError i s
  · rw [hw, headerError_of_reject hdec]
    rfl

/-- Settles O16: the two cases of `AnswersError`. -/
theorem headerReportsFirstFailedCheck : Obligations.HeaderReportsFirstFailedCheck := by
  intro w s
  have h := headerWord_answersError w s
  exact ⟨fun c hc => by rwa [hc] at h, fun hnone => by rwa [hnone] at h⟩

/-- Settles O17: error entry writes the error state and the frame state alone. -/
theorem errorEntryIsPrecise : Obligations.ErrorEntryIsPrecise := fun c w s hc =>
  ⟨raiseError c w s, (headerReportsFirstFailedCheck w s).1 c hc, rfl, rfl, rfl, rfl, rfl, rfl, rfl, rfl, rfl, rfl, rfl,
    rfl, rfl, rfl⟩

/-! ### The halted engine (R342, R344) and the idle one (R363) -/

/-- Settles O9: a halted engine makes no word wait, and discards the one it takes. -/
theorem haltedEngineDiscardsWords : Obligations.HaltedEngineDiscardsWords := by
  intro s w rest hhost hhalt
  rw [step_write s w rest hhost]
  simp [mustWait, takeWord, hhalt]

/-- Settles O18: by the host's next transaction; a word is discarded, and the other two ports write OUT and the host's
side only. -/
theorem onlyResetLeavesHalt : Obligations.OnlyResetLeavesHalt := by
  intro s t hhalt hstep hreset
  cases hhost : s.host with
  | nil =>
    cases (step_idle s hhost).symm.trans hstep
    exact ⟨rfl, rfl, rfl, rfl, rfl⟩
  | cons op rest =>
    cases op with
    | write w =>
      cases (haltedEngineDiscardsWords s w rest hhost hhalt).symm.trans hstep
      exact ⟨rfl, rfl, rfl, rfl, rfl⟩
    | readOut =>
      rw [step_readOut s rest hhost] at hstep
      obtain ⟨_, hread⟩ | ⟨_, _, _, hread⟩ := responseRead_cases { s with host := rest } <;>
        cases hread.symm.trans hstep
      exact ⟨rfl, rfl, rfl, rfl, rfl⟩
    | readStatus off =>
      rw [step_readStatus s off rest hhost] at hstep
      obtain ⟨_, _, _, _, hread⟩ | ⟨_, hread⟩ := statusRead_cases off { s with host := rest } <;>
        cases hread.symm.trans hstep
      exact ⟨rfl, rfl, rfl, rfl, rfl⟩
    | writeStatus off v =>
      rw [step_writeStatus s off v rest hhost] at hstep
      obtain ⟨_, hwrite⟩ | ⟨_, hwrite⟩ := statusWrite_cases off { s with host := rest } <;>
        cases hwrite.symm.trans hstep
      exact ⟨rfl, rfl, rfl, rfl, rfl⟩
    | reset together => exact absurd hhost (hreset together rest)

/-- Settles O11: `step_idle` is the statement. -/
theorem idleEngineHoldsItsState : Obligations.IdleEngineHoldsItsState := step_idle

/-! ### The copies on a platform (R361) -/

/-- R361: a step of the platform puts the next state of copy i in its place. -/
theorem platformStep_eq_next {i : Fin Config.nInstances} {p q : Platform} (h : platformStep i p = .next q) :
    ∃ t, step p[i] = .next t ∧ q = p.set i t := by
  unfold platformStep at h
  split at h
  next t hstep => cases h; exact ⟨t, hstep, rfl⟩
  all_goals cases h

/-- Settles O59: the place of copy i is the only one written. -/
theorem instancesAreIndependent : Obligations.InstancesAreIndependent := by
  intro i p q h
  obtain ⟨t, hstep, rfl⟩ := platformStep_eq_next h
  refine ⟨by simpa using hstep, fun j hj => ?_⟩
  exact Vector.getElem_set_ne i.isLt j.isLt (Fin.val_ne_of_ne hj.symm)

end Sys2Proof.Machine
end

section
/-! PROOFS. Back-pressure of the response queue (spec/70_reset_and_hazards.md R392) and the permutations that a READ
costs (R395). -/

namespace Sys2Proof.Machine

/-! ### A header word that waits, and one that is taken (R392) -/

/-- R390, R392: a command-port write in a core of any OUT_DEPTH. -/
theorem hostStep_write {s : State} {w : Word} {rest : List HostOp} (hhost : s.host = .write w :: rest)
    (depth : Option Nat) :
    hostStep depth s = if mustWait depth w s then .next (drainStep s) else takeWord w { s with host := rest } := by
  simp only [hostStep, hhost]

/-- R392: between commands a word waits exactly when its output has no room. -/
theorem mustWait_of_ready {s : State} (hready : Ready s) (depth : Option Nat) (w : Word) :
    mustWait depth w s = !roomFor depth (outNeeded w s) s := by
  obtain ⟨hhalt, hpend⟩ := hready
  simp [mustWait, hhalt, hpend]

/-- R102: between commands a word that the engine takes is a header. -/
theorem takeWord_of_ready {s : State} (hready : Ready s) (w : Word) : takeWord w s = headerWord w s := by
  obtain ⟨hhalt, hpend⟩ := hready
  simp [takeWord, hhalt, hpend]

/-- R392: a queue of a capacity that the rule allows has room exactly when the free space is at least `need`. -/
theorem roomFor_some_iff {d : Nat} (hd : 65535 ≤ d) (need : Nat) (s : State) :
    roomFor (some d) need s = true ↔ need ≤ d - s.out.length := by
  simpa using roomFor_iff (some d) (by simpa using hd) need s

section ReadyForHeader

variable {s : State} {w : Word} {rest : List HostOp}

/-- R392: without room in OUT the step makes an outstanding read, or nothing. -/
theorem hostStep_of_noRoom (hhost : s.host = .write w :: rest) (hready : Ready s) {depth : Option Nat}
    (hroom : roomFor depth (outNeeded w s) s = false) : hostStep depth s = .next (drainStep s) := by
  rw [hostStep_write hhost, mustWait_of_ready hready, hroom]
  rfl

/-- R392: with room in OUT the word is taken as a header. -/
theorem hostStep_of_room (hhost : s.host = .write w :: rest) (hready : Ready s) {depth : Option Nat}
    (hroom : roomFor depth (outNeeded w s) s = true) : hostStep depth s = headerWord w { s with host := rest } := by
  rw [hostStep_write hhost, mustWait_of_ready hready, hroom]
  exact takeWord_of_ready (s := { s with host := rest }) hready w

end ReadyForHeader

/-- R392: with no read outstanding a waiting word changes nothing. -/
theorem drainStep_of_drain_eq_zero {s : State} (h : s.drain = 0) : drainStep s = s := by
  simp only [drainStep, h]

/-- R392: an outstanding read takes the head of OUT while a word waits. -/
theorem drainStep_of_outstanding {s : State} {k : Nat} {b : Byte} {bs : List Byte} (hdrain : s.drain = k + 1)
    (hout : s.out = b :: bs) :
    drainStep s = { s with out := bs, seen := s.seen ++ [.outByte b], drain := k } := by
  simp only [drainStep, hdrain, hout]

/-- Settles O10: the step of a ready engine is decided by whether OUT has room, which is the comparison with the free
space in a finite queue and always so in an unbounded one. -/
theorem fullQueueStallsCommandPort : Obligations.FullQueueStallsCommandPort := by
  refine ⟨fun d s w rest hd hhost hready => ?_, fun _ => rfl, outDepth_ge⟩
  have hroom := roomFor_some_iff hd (outNeeded w s) s
  have hstall (hfull : d - s.out.length < outNeeded w s) : hostStep (some d) s = .next (drainStep s) :=
    hostStep_of_noRoom hhost hready (Bool.eq_false_iff.2 fun h => hfull.not_ge (hroom.1 h))
  refine ⟨fun hfull hdrain => ?_, fun hfull k b bs hdrain hout => ?_,
    fun hfits => hostStep_of_room hhost hready (hroom.2 hfits),
    hostStep_of_room hhost hready ((roomFor_iff none (by simp) _ s).2 (by simp))⟩
  · rw [hstall hfull, drainStep_of_drain_eq_zero hdrain]
  · rw [hstall hfull, drainStep_of_outstanding hdrain hout]

/-! ### The permutations of a READ (R395) -/

/-- R267: a reader within its window stands in its own stream, at its cursor. -/
theorem streamAt_pos {r : Reader} (hpos : r.pos.toNat ≤ r.rate.toNat) : StreamAt r.rs r.pos.toNat r :=
  ⟨0, rfl, by simp, hpos⟩

/-- R262, R267: after byte k of the stream RS is the state of the window that holds byte k. -/
theorem StreamAt.squeezeByte_rs {rs0 : Lanes} {k : Nat} {r : Reader} (h : StreamAt rs0 k r) (hrate : 0 < r.rate.toNat) :
    (Machine.squeezeByte r).2.rs = Nat.iterate keccakF (k / r.rate.toNat) rs0 := by
  obtain ⟨⟨q, hrs, hk, _⟩, hlt⟩ := h.refill hrate
  rw [hk, refill_rate, Nat.mul_add_div hrate, Nat.div_eq_of_lt hlt, Nat.add_zero]
  exact hrs

/-- R395: the count ⌈max(0, m + 1 − r)/r⌉ is the number of the window that holds byte m. -/
theorem ceil_past_window {r : Nat} (hr : 0 < r) (m : Nat) : (m + 1 - r + (r - 1)) / r = m / r := by
  by_cases hpast : r ≤ m + 1
  · rw [show m + 1 - r + (r - 1) = m by omega]
  · rw [Nat.div_eq_of_lt (by omega), Nat.div_eq_of_lt (by omega)]

/-- Settles O43: no byte costs nothing; otherwise RS is the state of the window that holds the last byte read. -/
theorem readPermutationCount : Obligations.ReadPermutationCount := by
  intro n r hpos hrate
  cases n with
  | zero =>
    rw [Nat.add_zero, Nat.sub_eq_zero_of_le hpos, Nat.zero_add, Nat.div_eq_of_lt (Nat.sub_one_lt_of_lt hrate)]
    rfl
  | succ n =>
    have hstands := ((streamAt_pos hpos).squeeze hrate n).2
    have hlast := hstands.squeezeByte_rs (by simpa using hrate)
    rw [squeeze_rate] at hlast
    rw [squeeze_add n 1, ← Nat.add_assoc, ceil_past_window hrate]
    exact hlast

end Sys2Proof.Machine
end
